-- ==== Sys2Proof/Word.lean ====
section
/-! DEFINITION. The one word of the machine: an unsigned byte (R12: bit 0 is the least significant bit). -/

namespace Sys2Proof

/-- A byte: a memory cell, a register, an address 0..255, an opcode or an operand. Always read as unsigned (R12). -/
abbrev Byte := BitVec 8

end Sys2Proof
end

