-- ==== Sys2Proof/Config.lean ====
section
/-! DEFINITION. What an implementation fixes: the handlers the decoder selects, the four parameters of R11, and the
free values of the values the spec leaves open. -/

namespace Sys2Proof

/-- The ten operation handlers the decoder can select (R2, R80). -/
inductive Handler where
  | halt
  | loadImmediate
  | printRegister
  | multiply
  | compare
  | jump
  | jumpIfEqual
  | jumpIfNotEqual
  | push
  | pop
  deriving DecidableEq, Repr

/-- The parameter `OPCODE_MAP` (R11): the opcode byte of each handler. -/
structure OpcodeMap where
  halt : Byte
  loadImmediate : Byte
  printRegister : Byte
  multiply : Byte
  compare : Byte
  jump : Byte
  jumpIfEqual : Byte
  jumpIfNotEqual : Byte
  push : Byte
  pop : Byte
  deriving DecidableEq, Repr

/-- The four parameters of R11, which the machine takes as arguments (`stepWith`, `machineOf`). -/
structure Params where
  /-- `OPCODE_MAP` (R11, R76, D1). -/
  opcodes : OpcodeMap
  /-- `SP_RESET` (R11, D3). -/
  spReset : Byte
  /-- `RESET_CLEARS_RAM` (R11, R171, D22). -/
  clearsRam : Bool
  /-- `CYCLES(h)` (R11, R182, D14): open, and no rule reads it (log entry 14). -/
  cycles : Handler → Nat

/-- What stands for `CYCLES(h)` in the default parameters: the spec gives it no default (log entry 14). -/
opaque Config.cycles : Handler → Nat

/-- FREE VALUE: what `ld_rdata` shows while the core is Running (R179: unspecified, any value). The argument is a
draw number the reader supplies, so that two readings need not agree (log entry 7). -/
opaque Config.freeLdRdata : Nat → Byte

/-- FREE VALUE: what `dbg_rdata` shows while the core is Running (R179: unspecified, any value; log entry 7). -/
opaque Config.freeDbgRdata : Nat → Byte

/-- FREE VALUE: the byte a cell holds after power-up, before a reset that does not clear RAM (R171; log entry 8). -/
opaque Config.powerUpByte : Nat → Byte

end Sys2Proof
end

