-- ==== Sys2Proof/Syntax.lean ====
section
/-! DEFINITION. The instructions as terms: one constructor per row of spec/opcode_table.json, an operand being the
whole operand byte (R74, R75). -/

namespace Sys2Proof

/-- The ten instructions of R2. A register operand is the whole byte 0..255: an index above 7 is no reserved encoding
but raises `OutOfBounds` when the instruction runs (R74, R79). -/
inductive Instr where
  /-- R100 -/
  | halt
  /-- R110 -/
  | loadImmediate (reg value : Byte)
  /-- R103 -/
  | printRegister (reg : Byte)
  /-- R120 -/
  | multiply (regA regB : Byte)
  /-- R122 -/
  | compare (regA regB : Byte)
  /-- R130 -/
  | jump (reg : Byte)
  /-- R131 -/
  | jumpIfEqual (reg : Byte)
  /-- R133 -/
  | jumpIfNotEqual (reg : Byte)
  /-- R140 -/
  | push (reg : Byte)
  /-- R142 -/
  | pop (reg : Byte)
  deriving DecidableEq, Repr

/-- The handler an instruction runs. -/
def Instr.handler : Instr → Handler
  | .halt => .halt
  | .loadImmediate _ _ => .loadImmediate
  | .printRegister _ => .printRegister
  | .multiply _ _ => .multiply
  | .compare _ _ => .compare
  | .jump _ => .jump
  | .jumpIfEqual _ => .jumpIfEqual
  | .jumpIfNotEqual _ => .jumpIfNotEqual
  | .push _ => .push
  | .pop _ => .pop

/-- The operand bytes in increasing address order (R71). -/
def Instr.operandBytes : Instr → List Byte
  | .halt => []
  | .loadImmediate reg value => [reg, value]
  | .printRegister reg => [reg]
  | .multiply regA regB => [regA, regB]
  | .compare regA regB => [regA, regB]
  | .jump reg => [reg]
  | .jumpIfEqual reg => [reg]
  | .jumpIfNotEqual reg => [reg]
  | .push reg => [reg]
  | .pop reg => [reg]

/-- The operands that are register indices, in the order in which they are checked (R81). -/
def Instr.regOperands : Instr → List Byte
  | .halt => []
  | .loadImmediate reg _ => [reg]
  | .printRegister reg => [reg]
  | .multiply regA regB => [regA, regB]
  | .compare regA regB => [regA, regB]
  | .jump reg => [reg]
  | .jumpIfEqual reg => [reg]
  | .jumpIfNotEqual reg => [reg]
  | .push reg => [reg]
  | .pop reg => [reg]

end Sys2Proof
end

