-- ==== Sys2Proof/WellFormed.lean ====
section
/-! DEFINITION. Well-formed instructions: every register operand names one of the eight registers (R22, R81). An
instruction that is not well-formed still decodes and runs; it raises `OOB_REGISTER` (R151). -/

namespace Sys2Proof

/-- A register operand byte names a register: its value is in 0..7 (R22). -/
def regOperandOk (b : Byte) : Bool := decide (b.toNat ≤ 7)

/-- Every register operand names a register (R81). The immediate of LOAD_IMMEDIATE is never checked (R110). -/
def Instr.wellFormed (i : Instr) : Bool := i.regOperands.all regOperandOk

end Sys2Proof
end

