-- ==== Sys2Proof/Decode.lean ====
section
/-! DEFINITION. The decoder (R70 to R82), total on any bytes and rejecting by name, and the encoder written from the
same table. Both are stated over the parameter `OPCODE_MAP` (R11) and then fixed at its default (R76). -/

namespace Sys2Proof

/-- The ten handlers in the order of the table of R76. -/
def Handler.all : List Handler :=
  [.halt, .loadImmediate, .printRegister, .multiply, .compare, .jump, .jumpIfEqual, .jumpIfNotEqual, .push, .pop]

/-- The operand count of each handler (R71, R72). -/
def Handler.operandCount : Handler → Nat
  | .halt => 0
  | .loadImmediate => 2
  | .printRegister => 1
  | .multiply => 2
  | .compare => 2
  | .jump => 1
  | .jumpIfEqual => 1
  | .jumpIfNotEqual => 1
  | .push => 1
  | .pop => 1

/-- The length of an instruction in bytes: the opcode and its operands (R72). -/
def Handler.length (h : Handler) : Nat := 1 + h.operandCount

/-- `OPCODE_MAP(h)` (R76). -/
def OpcodeMap.byteOf (m : OpcodeMap) : Handler → Byte
  | .halt => m.halt
  | .loadImmediate => m.loadImmediate
  | .printRegister => m.printRegister
  | .multiply => m.multiply
  | .compare => m.compare
  | .jump => m.jump
  | .jumpIfEqual => m.jumpIfEqual
  | .jumpIfNotEqual => m.jumpIfNotEqual
  | .push => m.push
  | .pop => m.pop

/-- `OPCODE_MAP` is injective (R11). -/
def OpcodeMap.Injective (m : OpcodeMap) : Prop := ∀ h h' : Handler, m.byteOf h = m.byteOf h' → h = h'

/-- The default of `OPCODE_MAP`: the table of R76 (D1; UNVERIFIED, log entry 6). -/
def Config.opcodeMap : OpcodeMap where
  halt := 0x01
  loadImmediate := 0x82
  printRegister := 0x47
  multiply := 0xA2
  compare := 0xA7
  jump := 0x54
  jumpIfEqual := 0x55
  jumpIfNotEqual := 0x56
  push := 0x45
  pop := 0x46

/-- The defaults of R11, at which the step of the host's interface runs (UNVERIFIED, log entries 6 and 9): the table of
R76, `SP_RESET = 0x00` and `RESET_CLEARS_RAM = true`; `CYCLES` has none. -/
def Config.params : Params where
  opcodes := Config.opcodeMap
  spReset := 0x00
  clearsRam := true
  cycles := Config.cycles

/-- `DECODE(op)` (R80): the handler whose opcode is `op`, or none. The whole byte is matched. -/
def decodeOp (m : OpcodeMap) (op : Byte) : Option Handler := Handler.all.find? fun h => m.byteOf h == op

/-- Why bytes are no instruction. -/
inductive DecodeError where
  /-- There is no byte at all. -/
  | noBytes
  /-- The opcode byte is not in the table (R78). -/
  | unknownOpcode (op : Byte)
  /-- Operand `k` (1 or 2) of handler `h` has no byte. -/
  | missingOperand (h : Handler) (k : Nat)
  deriving DecidableEq, Repr

/-- An instruction with one operand byte, and the bytes after it (format `R`, R71). -/
def takeOne (h : Handler) (mk : Byte → Instr) : List Byte → Except DecodeError (Instr × List Byte)
  | [] => .error (.missingOperand h 1)
  | a :: rest => .ok (mk a, rest)

/-- An instruction with two operand bytes, and the bytes after it (formats `RR` and `RI`, R71). -/
def takeTwo (h : Handler) (mk : Byte → Byte → Instr) : List Byte → Except DecodeError (Instr × List Byte)
  | [] => .error (.missingOperand h 1)
  | [_] => .error (.missingOperand h 2)
  | a :: b :: rest => .ok (mk a b, rest)

/-- The operands of the selected handler, taken from the bytes after the opcode (R71, R73). -/
def takeOperands (h : Handler) (rest : List Byte) : Except DecodeError (Instr × List Byte) :=
  match h with
  | .halt => .ok (.halt, rest)
  | .loadImmediate => takeTwo h .loadImmediate rest
  | .printRegister => takeOne h .printRegister rest
  | .multiply => takeTwo h .multiply rest
  | .compare => takeTwo h .compare rest
  | .jump => takeOne h .jump rest
  | .jumpIfEqual => takeOne h .jumpIfEqual rest
  | .jumpIfNotEqual => takeOne h .jumpIfNotEqual rest
  | .push => takeOne h .push rest
  | .pop => takeOne h .pop rest

/-- Decode an instruction whose opcode byte is `op` and whose later bytes are at the front of `rest`. -/
def decodeFrom (m : OpcodeMap) (op : Byte) (rest : List Byte) : Except DecodeError (Instr × List Byte) :=
  match decodeOp m op with
  | none => .error (.unknownOpcode op)
  | some h => takeOperands h rest

/-- Decode the instruction at the front of a list of bytes, under an opcode map; the bytes after it are returned. -/
def decodeWith (m : OpcodeMap) : List Byte → Except DecodeError (Instr × List Byte)
  | [] => .error .noBytes
  | op :: rest => decodeFrom m op rest

/-- Decode under the default `OPCODE_MAP`. -/
def decode (bytes : List Byte) : Except DecodeError (Instr × List Byte) := decodeWith Config.opcodeMap bytes

/-- The bytes of an instruction under an opcode map: the opcode, then the operands (R70, R71). -/
def encodeWith (m : OpcodeMap) (i : Instr) : List Byte := m.byteOf i.handler :: i.operandBytes

/-- The bytes of an instruction under the default `OPCODE_MAP`. -/
def encode (i : Instr) : List Byte := encodeWith Config.opcodeMap i

/-- The opcode byte of a handler under the default map (R76). -/
def Handler.opcode (h : Handler) : Byte := Config.opcodeMap.byteOf h

/-- Byte `k` of an instruction whose bits are the low `nbits` bits of `w`, byte 0 being bits 7..0 (the numbering of
spec/opcode_table.json); every bit above `nbits` is 0. -/
def tableByte (nbits w k : Nat) : Byte := BitVec.ofNat 8 ((w % 2 ^ nbits) / 2 ^ (8 * k))

/-- The bytes of a table word, up to the longest instruction's three (R70). -/
def tableBytes (nbits w : Nat) : List Byte := [tableByte nbits w 0, tableByte nbits w 1, tableByte nbits w 2]

/-- The instruction the decoder reads from a table word. -/
def decodeTableWord (nbits w : Nat) : Option Instr :=
  match decode (tableBytes nbits w) with
  | .ok (i, _) => some i
  | .error _ => none

end Sys2Proof
end

