-- ==== Sys2Proof/Machine/State.lean ====
section
/-! DEFINITION. The state of the core (R20), as plain data, and the state right after reset (R38). -/

namespace Sys2Proof.Machine

/-- The number of a register: 0..7 (R21). -/
abbrev RegIdx := Fin 8

/-- The stack pointer is register 7 (R9, R23). -/
def spIndex : RegIdx := 7

/-- The execution FSM state (R32). -/
inductive FsmState where
  | halted
  | running
  deriving DecidableEq, Repr

/-- The flag register FL (R29). -/
structure Flags where
  /-- greater -/
  g : Bool
  /-- equal -/
  e : Bool
  /-- lesser -/
  l : Bool
  deriving DecidableEq, Repr

/-- `FAULT.kind` (R34); the codes 5 to 7 are never produced (93 I15) and have no constructor
(log entry 15). -/
inductive FaultKind where
  /-- code 0: no fault -/
  | none
  /-- code 1 (R150) -/
  | decodeError
  /-- code 2 (R151) -/
  | oobRegister
  /-- code 3 (R152) -/
  | oobMemoryOperand
  /-- code 4 (R152) -/
  | oobMemoryFetch
  deriving DecidableEq, Repr

/-- The fault record FAULT (R34). -/
structure FaultRecord where
  valid : Bool
  kind : FaultKind
  addr : BitVec 9
  pc : Byte
  opcode : Byte
  deriving DecidableEq, Repr

/-- What the host drives on the core's input ports during one step (R175); `clk` is the step itself (R182). -/
structure HostPins where
  /-- synchronous reset (R170) -/
  rst : Bool
  /-- run entry point (R173) -/
  start : Bool
  /-- host memory write enable (R176) -/
  ldWe : Bool
  /-- host memory address, for write and read -/
  ldAddr : Byte
  /-- host memory write data -/
  ldWdata : Byte
  /-- register select for the debug readout -/
  dbgRsel : BitVec 3
  deriving DecidableEq, Repr

/-- Every input low: the host does nothing. -/
def HostPins.idle : HostPins :=
  { rst := false, start := false, ldWe := false, ldAddr := 0, ldWdata := 0, dbgRsel := 0 }

/-- Memory: pairs of an address and a byte, addresses strictly rising, no byte equal to what an unlisted address
reads as. -/
abbrev Memory := List Host.Cell

/-- What an address that memory does not list reads as: memory is zero-initialized (R35, R171; DEDUCED, log
entry 12). -/
def Memory.unlisted : Byte := 0x00

/-- The state of the machine. The first six fields are the architectural state of R20; `out` is the history of output
events the host has seen (R37, R104; log entry 1) and `hostIn` what the host will drive on the input ports in the
coming steps (log entry 2). -/
structure State where
  /-- MEM[0..255] (R35) -/
  mem : Memory
  /-- R[0..7] (R21); R[7] is SP (R23) -/
  regs : Vector Byte 8
  /-- the program counter (R25) -/
  pc : Byte
  /-- FL (R29) -/
  flags : Flags
  /-- the FSM state (R32), the spec's `state` -/
  fsm : FsmState
  /-- FAULT (R34) -/
  fault : FaultRecord
  /-- the bytes emitted on the output port so far, oldest first (R104) -/
  out : List Byte
  /-- the input pins of the coming steps, the next step's first; after the last one every input is low -/
  hostIn : List HostPins
  deriving DecidableEq, Repr

/-- The model's own fault outcome. It has NO constructor: every fatal error of the spec (R150 to R152) has an entry the
spec describes (R153), so taking it is a next state, in which the record FAULT is written (log entry 3). -/
inductive Fault where
  deriving DecidableEq, Repr

/-- The reasons for which an instruction has no meaning. -/
inductive Refusal where
  /-- Raised by an arm of `exec` whose instruction is not modelled yet; no arm raises it. Safe. -/
  | notModelled (mnemonic : String)
  deriving DecidableEq, Repr

/-- The fault record after reset: every field 0 (R34, R38). -/
def FaultRecord.clear : FaultRecord := { valid := false, kind := .none, addr := 0, pc := 0, opcode := 0 }

/-- The flags after reset (R29, R38). -/
def Flags.clear : Flags := { g := false, e := false, l := false }

/-- The state right after reset (R38), with the default parameters of R11; no byte has been emitted and the host
drives nothing. -/
def State.reset : State where
  mem := []
  regs := #v[0, 0, 0, 0, 0, 0, 0, Config.params.spReset]
  pc := 0
  flags := Flags.clear
  fsm := .halted
  fault := FaultRecord.clear
  out := []
  hostIn := []

end Sys2Proof.Machine
end

