-- ==== Sys2Proof/Machine/Ops.lean ====
section
/-! DEFINITION. The named operations over memory, registers, the output port and the program counter, taking a fault,
and the codes of the fault record. There is no return from a fault (R155, R160): only reset clears one. -/

namespace Sys2Proof.Machine

/-- The stored byte at an address, or what an unlisted address reads as. -/
def Memory.read : Memory → Nat → Byte
  | [], _ => Memory.unlisted
  | (b, v) :: m, a => if a = b then v else Memory.read m a

/-- Memory without any entry for an address. -/
def Memory.erase (m : Memory) (a : Nat) : Memory := m.filter fun c => c.1 != a

/-- Put an entry in its place among rising addresses. -/
def Memory.insert (a : Nat) (v : Byte) : Memory → Memory
  | [] => [(a, v)]
  | (b, w) :: m => if a < b then (a, v) :: (b, w) :: m else (b, w) :: Memory.insert a v m

/-- Store a byte at an address, keeping the canonical form: the byte an unlisted address reads as is not listed. -/
def Memory.write (m : Memory) (a : Nat) (v : Byte) : Memory :=
  if v = Memory.unlisted then m.erase a else Memory.insert a v (m.erase a)

/-- Every entry lies at or above `lo` and below 256, addresses rise strictly, and no entry is an unlisted byte. -/
def Memory.wfFrom : Nat → Memory → Bool
  | _, [] => true
  | lo, (a, v) :: m => decide (lo ≤ a) && decide (a < 256) && decide (v ≠ Memory.unlisted) && Memory.wfFrom (a + 1) m

/-- Memory is in its canonical form, and lists only addresses 0..255 (R35). -/
def Memory.wf (m : Memory) : Bool := Memory.wfFrom 0 m

/-- `MemRead(a, 1)` (R51): none stands for `OutOfBounds`. -/
def State.memRead? (s : State) (a : Nat) : Option Byte := if a ≤ 255 then some (s.mem.read a) else none

/-- `MemWrite(a, 1, v)` (R52): none stands for `OutOfBounds`. -/
def State.memWrite? (s : State) (a : Nat) (v : Byte) : Option State :=
  if a ≤ 255 then some { s with mem := s.mem.write a v } else none

/-- `MemRead` at an 8-bit address, which is always in bounds (R53). -/
def State.readByte (s : State) (a : Byte) : Byte := s.mem.read a.toNat

/-- `MemWrite` at an 8-bit address, which is always in bounds (R53). -/
def State.writeByte (s : State) (a v : Byte) : State := { s with mem := s.mem.write a.toNat v }

/-- Read register `i` (R21). -/
def State.reg (s : State) (i : RegIdx) : Byte := s.regs[i]

/-- Write register `i` (R24): a byte is its value modulo 256. -/
def State.setReg (s : State) (i : RegIdx) (v : Byte) : State := { s with regs := s.regs.set i v }

/-- The opcode byte of the instruction in progress: the byte at `pc` before the instruction has any effect (R82, R60),
whatever `OPCODE_MAP` is. A fault record holds it (R34, R153). -/
def State.opcodeByte (s : State) : Byte := s.readByte s.pc

/-- The stack pointer, another name for R[7] (R23). -/
def State.sp (s : State) : Byte := s.reg spIndex

/-- Write the flag register (R29). -/
def State.setFlags (s : State) (f : Flags) : State := { s with flags := f }

/-- Send one byte to the output port (R104). -/
def State.emit (s : State) (v : Byte) : State := { s with out := s.out ++ [v] }

/-- The 3-bit code of a fault kind (R34). -/
def FaultKind.code : FaultKind → BitVec 3
  | .none => 0
  | .decodeError => 1
  | .oobRegister => 2
  | .oobMemoryOperand => 3
  | .oobMemoryFetch => 4

/-- Taking a fault (R153): the record is written with the address of the instruction in progress, the core stops, and
nothing else changes; `pc` keeps the address of the faulting instruction. -/
def State.raise (s : State) (kind : FaultKind) (addr : Nat) (opcode : Byte) : State :=
  { s with
    fault := { valid := true, kind := kind, addr := BitVec.ofNat 9 addr, pc := s.pc, opcode := opcode }
    fsm := .halted }

/-- Sequential advance (R27): `pc + len` on unbounded integers, never wrapped; past 255 it raises `OOB_MEMORY_FETCH`
with the opcode byte `op`, which was read before the instruction's effects (R60: a PUSH may since have overwritten it). -/
def State.advance (s : State) (h : Handler) (op : Byte) : State :=
  let t := s.pc.toNat + h.length
  if t ≤ 255 then { s with pc := BitVec.ofNat 8 t } else s.raise .oobMemoryFetch t op

/-- A taken branch (R28): no advance. -/
def State.branch (s : State) (target : Byte) : State := { s with pc := target }

/-- Stop a run normally (R100): Halted, and the program counter back to 0. -/
def State.halt (s : State) : State := { s with fsm := .halted, pc := 0 }

/-- PUSH's data part (R140): decrement SP modulo 256, then write at the new top. -/
def State.pushByte (s : State) (v : Byte) : State :=
  let sp1 := s.sp - 1
  (s.setReg spIndex sp1).writeByte sp1 v

/-- POP's data part (R142): read the top, increment SP modulo 256, then write the destination, which wins where it is
SP itself (R145). -/
def State.popInto (s : State) (r : RegIdx) : State :=
  let sp0 := s.sp
  let v := s.readByte sp0
  (s.setReg spIndex (sp0 + 1)).setReg r v

end Sys2Proof.Machine
end

