-- ==== Sys2Proof/Machine/Flags.lean ====
section
/-! DEFINITION. The flag computations: the unsigned compare (R122), the branch condition (R30) and the layout of the
flag register on the status port (R31). -/

namespace Sys2Proof.Machine

/-- The flags COMPARE sets: the unsigned order of two bytes (R122). -/
def compareFlags (a b : Byte) : Flags :=
  { g := decide (b.toNat < a.toNat), e := decide (a.toNat = b.toNat), l := decide (a.toNat < b.toNat) }

/-- The condition both conditional jumps read: the equal flag (R30). -/
def Flags.equal (f : Flags) : Bool := f.e

/-- `FL` on the status port (R31): bit 0 is E, bit 1 is G, bit 2 is L. -/
def Flags.toBits (f : Flags) : BitVec 3 := BitVec.ofBool f.l ++ BitVec.ofBool f.g ++ BitVec.ofBool f.e

/-- At most one flag is 1 (R29). -/
def Flags.atMostOne (f : Flags) : Bool := !(f.g && f.e) && !(f.g && f.l) && !(f.e && f.l)

/-- Exactly one flag is 1, as after any COMPARE (R29). -/
def Flags.exactlyOne (f : Flags) : Bool := f.atMostOne && (f.g || f.e || f.l)

end Sys2Proof.Machine
end

