-- ==== Sys2Proof/Machine/Operands.lean ====
section
/-! DEFINITION. The operand forms (R71, R74, R75, R81) with the checks every instruction makes before it has any
effect (R82, R157): first that its operand bytes lie in memory, then its register operands in order. Every
meaning makes these checks itself, so that it is total on any `pc` (DESIGN CHOICE, log entry 13). -/

namespace Sys2Proof.Machine

/-- The first operand address of handler `h` at `pc` that lies past 255, formed on unbounded integers (R82). -/
def operandOob (h : Handler) (pc : Byte) : Option Nat :=
  if 1 ≤ h.operandCount ∧ 255 < pc.toNat + 1 then some (pc.toNat + 1)
  else if 2 ≤ h.operandCount ∧ 255 < pc.toNat + 2 then some (pc.toNat + 2)
  else none

/-- `CheckReg` (R13, R22): the register a whole operand byte names; none stands for `OutOfBounds`. -/
def regIndex? (b : Byte) : Option RegIdx := if h : b.toNat < 8 then some ⟨b.toNat, h⟩ else none

/-- The operand fetch check (R82): an operand byte past address 255 raises `OOB_MEMORY_OPERAND` before any effect. -/
def withOperands (h : Handler) (s : State) (k : State) : State :=
  match operandOob h s.pc with
  | some a => s.raise .oobMemoryOperand a s.opcodeByte
  | none => k

/-- The register check (R81, R82): an index above 7 raises `OOB_REGISTER` before any effect. -/
def withReg (b : Byte) (s : State) (k : RegIdx → State) : State :=
  match regIndex? b with
  | none => s.raise .oobRegister b.toNat s.opcodeByte
  | some r => k r

/-- One register operand: format `R`, and format `RI`, whose immediate is never checked (R81, R110). -/
def onReg (h : Handler) (reg : Byte) (s : State) (k : RegIdx → State) : State :=
  withOperands h s (withReg reg s k)

/-- Two register operands, the first checked first: format `RR` (R81, R157). -/
def onRegReg (h : Handler) (regA regB : Byte) (s : State) (k : RegIdx → RegIdx → State) : State :=
  withOperands h s (withReg regA s fun a => withReg regB s fun b => k a b)

end Sys2Proof.Machine
end

