-- ==== Sys2Proof/Machine/Alu.lean ====
section
/-! DEFINITION. The meanings of the ALU instructions (spec/42_alu.md): MULTIPLY, COMPARE. -/

namespace Sys2Proof.Machine

/-- The ALU's multiply (R121): the exact product of two unsigned bytes, modulo 256. -/
def mulByte (a b : Byte) : Byte := BitVec.ofNat 8 (a.toNat * b.toNat % 256)

/-- MULTIPLY (R120): both registers are read before the first is written; no flag changes. -/
def execMultiply (regA regB : Byte) (s : State) : Host.Outcome State Fault Refusal :=
  .next (onRegReg .multiply regA regB s fun a b => (s.setReg a (mulByte (s.reg a) (s.reg b))).advance .multiply s.opcodeByte)

/-- COMPARE (R122): writes all three flags from the unsigned order; no register changes. -/
def execCompare (regA regB : Byte) (s : State) : Host.Outcome State Fault Refusal :=
  .next (onRegReg .compare regA regB s fun a b => (s.setFlags (compareFlags (s.reg a) (s.reg b))).advance .compare s.opcodeByte)

end Sys2Proof.Machine
end

