-- ==== Sys2Proof/Machine/Control.lean ====
section
/-! DEFINITION. The meanings of the control transfers (spec/43_control_transfer.md). A register operand is checked
whether or not the branch is taken (R81). -/

namespace Sys2Proof.Machine

/-- JUMP (R130): assigns `pc`; no advance. -/
def execJump (reg : Byte) (s : State) : Host.Outcome State Fault Refusal :=
  .next (onReg .jump reg s fun r => s.branch (s.reg r))

/-- JUMP_IF_EQUAL (R131): taken when E is 1. -/
def execJumpIfEqual (reg : Byte) (s : State) : Host.Outcome State Fault Refusal :=
  .next (onReg .jumpIfEqual reg s fun r =>
    if s.flags.equal = true then s.branch (s.reg r) else s.advance .jumpIfEqual s.opcodeByte)

/-- JUMP_IF_NOT_EQUAL (R133): taken when E is 0. -/
def execJumpIfNotEqual (reg : Byte) (s : State) : Host.Outcome State Fault Refusal :=
  .next (onReg .jumpIfNotEqual reg s fun r =>
    if s.flags.equal = false then s.branch (s.reg r) else s.advance .jumpIfNotEqual s.opcodeByte)

end Sys2Proof.Machine
end

