-- ==== Sys2Proof/Machine/Load.lean ====
section
/-! DEFINITION. The meaning of the register load (spec/41_load_immediate.md): LOAD_IMMEDIATE. -/

namespace Sys2Proof.Machine

/-- LOAD_IMMEDIATE (R110): the immediate byte goes to the register unchanged, then the advance. -/
def execLoadImmediate (reg value : Byte) (s : State) : Host.Outcome State Fault Refusal :=
  .next (onReg .loadImmediate reg s fun r => (s.setReg r value).advance .loadImmediate s.opcodeByte)

end Sys2Proof.Machine
end

