-- ==== Sys2Proof/Machine/Stack.lean ====
section
/-! DEFINITION. The meanings of the stack instructions (spec/44_stack.md): PUSH, POP. -/

namespace Sys2Proof.Machine

/-- PUSH (R140): the source register is read before SP changes, so `PUSH 7` stores the old SP (R145). -/
def execPush (reg : Byte) (s : State) : Host.Outcome State Fault Refusal :=
  .next (onReg .push reg s fun r => (s.pushByte (s.reg r)).advance .push s.opcodeByte)

/-- POP (R142): the destination is written after SP, so for `POP 7` the loaded byte wins (R145). -/
def execPop (reg : Byte) (s : State) : Host.Outcome State Fault Refusal :=
  .next (onReg .pop reg s fun r => (s.popInto r).advance .pop s.opcodeByte)

end Sys2Proof.Machine
end

