-- ==== Sys2Proof/Machine/System.lean ====
section
/-! DEFINITION. The meanings of the system and output instructions (spec/40_system_output.md): HALT, PRINT_REGISTER. -/

namespace Sys2Proof.Machine

/-- HALT (R100): stops the run and resets `pc`; it fetches no operand and does not advance. -/
def execHalt (s : State) : Host.Outcome State Fault Refusal := .next s.halt

/-- PRINT_REGISTER (R103): emits the register, then advances. -/
def execPrintRegister (reg : Byte) (s : State) : Host.Outcome State Fault Refusal :=
  .next (onReg .printRegister reg s fun r => (s.emit (s.reg r)).advance .printRegister s.opcodeByte)

end Sys2Proof.Machine
end

