-- ==== Sys2Proof/Machine/Dispatch.lean ====
section
/-! DEFINITION. The dispatch: one arm per constructor of Instr, each one call of that instruction's meaning. -/

namespace Sys2Proof.Machine

def exec (i : Instr) (s : State) : Host.Outcome State Fault Refusal :=
  match i with
  | .halt => Sys2Proof.Machine.execHalt s
  | .loadImmediate reg value => Sys2Proof.Machine.execLoadImmediate reg value s
  | .printRegister reg => Sys2Proof.Machine.execPrintRegister reg s
  | .multiply regA regB => Sys2Proof.Machine.execMultiply regA regB s
  | .compare regA regB => Sys2Proof.Machine.execCompare regA regB s
  | .jump reg => Sys2Proof.Machine.execJump reg s
  | .jumpIfEqual reg => Sys2Proof.Machine.execJumpIfEqual reg s
  | .jumpIfNotEqual reg => Sys2Proof.Machine.execJumpIfNotEqual reg s
  | .push reg => Sys2Proof.Machine.execPush reg s
  | .pop reg => Sys2Proof.Machine.execPop reg s

end Sys2Proof.Machine
end

