-- ==== Sys2Proof/Machine/Fetch.lean ====
section
/-! DEFINITION. Fetching an instruction's bytes and decoding them (R82). -/

namespace Sys2Proof.Machine

/-- What the common fetch and decode gives: an instruction to run, or a fault to take. -/
inductive Fetched where
  | instr (i : Instr)
  | raised (kind : FaultKind) (addr : Nat)
  deriving DecidableEq, Repr

/-- The operand bytes that lie in memory after the opcode, at most two (R70, R82). A read has no side effect (R51), so
a byte the instruction does not need is as if not read. -/
def operandWindow (s : State) : List Byte :=
  [s.pc.toNat + 1, s.pc.toNat + 2].filterMap s.memRead?

/-- Fetch the opcode at `pc`, decode it under `OPCODE_MAP`, and fetch its operands (R82): an unknown opcode raises
`DECODE_ERROR` at `pc`, and operand `k` past address 255 raises `OOB_MEMORY_OPERAND` at `pc + k`. -/
def fetch (m : OpcodeMap) (s : State) : Fetched :=
  match decodeFrom m s.opcodeByte (operandWindow s) with
  | .ok (i, _) => .instr i
  | .error (.missingOperand _ k) => .raised .oobMemoryOperand (s.pc.toNat + k)
  | .error _ => .raised .decodeError s.pc.toNat

/-- Store the bytes of a list at rising addresses from `a`; what would lie past address 255 is not stored. -/
def Memory.writeAll (m : Memory) (a : Nat) : List Byte → Memory
  | [] => m
  | b :: bs => if a ≤ 255 then Memory.writeAll (m.write a b) (a + 1) bs else m

/-- `s` Running, with no host input pending, and with the given bytes stored at `pc`. -/
def State.placeAtPc (s : State) (bytes : List Byte) : State :=
  { s with mem := s.mem.writeAll s.pc.toNat bytes, fsm := .running, hostIn := [] }

end Sys2Proof.Machine
end

