-- ==== Sys2Proof/Machine/Ports.lean ====
section
/-! DEFINITION. The host interface (spec/70_reset_and_hazards.md): reset, run entry, image load, and the output ports. -/

namespace Sys2Proof.Machine

/-- The pins of the next step; with nothing left every input is low. -/
def State.nextPins (s : State) : HostPins := s.hostIn.headD HostPins.idle

/-- The state with the next step's pins taken. -/
def State.dropPins (s : State) : State := { s with hostIn := s.hostIn.tail }

/-- Reset (R38, R170, R171) under given parameters. Events already emitted stay emitted (R104) and the host's coming
inputs are the host's. -/
def State.resetWith (P : Params) (s : State) : State where
  mem := if P.clearsRam then [] else s.mem
  regs := #v[0, 0, 0, 0, 0, 0, 0, P.spReset]
  pc := 0
  flags := Flags.clear
  fsm := .halted
  fault := FaultRecord.clear
  out := s.out
  hostIn := s.hostIn

/-- Memory after power-up, each cell a draw (R171). -/
def Memory.powerUp : Memory :=
  (List.range 256).foldl (fun m a => m.write a (Config.powerUpByte a)) []

/-- The state after power-up and a first reset (R171): every cell is a draw, which a reset that clears RAM makes 0. -/
def State.powerUp (P : Params) : State := State.resetWith P { State.reset with mem := Memory.powerUp }

/-- A host memory write (R176); the caller sees to it that the core is Halted. -/
def State.hostLoad (p : HostPins) (s : State) : State := if p.ldWe then s.writeByte p.ldAddr p.ldWdata else s

/-- The run entry point (R173): ignored while a fault is recorded; the caller sees to it that the core is Halted. -/
def State.hostStart (p : HostPins) (s : State) : State :=
  if p.start && !s.fault.valid then { s with fsm := .running } else s

/-- One step of a Halted core (R167, R173, R176): only the host's inputs act, a write and a start in one step both
(DEDUCED, log entries 5 and 11). -/
def State.haltedStep (p : HostPins) (s : State) : State := (s.hostLoad p).hostStart p

/-- The pins that assert reset. -/
def HostPins.reset : HostPins := { HostPins.idle with rst := true }

/-- The pins that pulse `start`. -/
def HostPins.run : HostPins := { HostPins.idle with start := true }

/-- The pins that write one byte of memory. -/
def HostPins.load (a v : Byte) : HostPins := { HostPins.idle with ldWe := true, ldAddr := a, ldWdata := v }

/-- The pins that load an image, byte `i` at address `a + i` (R176). -/
def loadPins (a : Nat) : List Byte → List HostPins
  | [] => []
  | b :: bs => HostPins.load (BitVec.ofNat 8 a) b :: loadPins (a + 1) bs

/-- The boot sequence (R177): reset, load the image from address 0, pulse `start`. -/
def bootPins (image : List Byte) : List HostPins := HostPins.reset :: (loadPins 0 image ++ [HostPins.run])

/-- The output ports at a step boundary (R175, R179), but for the output event pulse. -/
structure PortsOut where
  ldRdata : Byte
  dbgRdata : Byte
  stRunning : Bool
  stFaultValid : Bool
  stFaultKind : BitVec 3
  stFaultAddr : BitVec 9
  stFaultPc : Byte
  stFaultOpcode : Byte
  stFlags : BitVec 3
  stPc : Byte
  deriving DecidableEq, Repr

/-- What the output ports show (R179). While Running the two readouts are free values, one draw per reading. -/
def State.ports (draw : Nat) (p : HostPins) (s : State) : PortsOut where
  ldRdata := if s.fsm = .halted then s.readByte p.ldAddr else Config.freeLdRdata draw
  dbgRdata := if s.fsm = .halted then s.reg p.dbgRsel.toFin else Config.freeDbgRdata draw
  stRunning := decide (s.fsm = .running)
  stFaultValid := s.fault.valid
  stFaultKind := s.fault.kind.code
  stFaultAddr := s.fault.addr
  stFaultPc := s.fault.pc
  stFaultOpcode := s.fault.opcode
  stFlags := s.flags.toBits
  stPc := s.pc

/-- The output port during a step from `s` to `s'` (R104, R175): `some v` is one pulse of `out_valid` with `out_data`
equal to `v`; none is an idle port. -/
def outPulse (s s' : State) : Option Byte := (s'.out.drop s.out.length).head?

end Sys2Proof.Machine
end

