-- ==== Sys2Proof/Machine/Run.lean ====
section
/-! DEFINITION. What one step does: the host's pins of the step are taken; reset acts at any time (R170); a Halted core
only answers the host (R32, R173, R176); a Running core ignores the other pins and executes one whole instruction
(R174). -/

namespace Sys2Proof.Machine

/-- One step of a Running core (R82, R174): fetch and decode, then run the instruction or take the fault. -/
def runStep (m : OpcodeMap) (s : State) : Host.Outcome State Fault Refusal :=
  match fetch m s with
  | .instr i => exec i s
  | .raised kind addr => .next (s.raise kind addr s.opcodeByte)

/-- One step under the pins `p`, which have been taken from the host's inputs. Reset wins over the other pins (DEDUCED,
log entries 4 and 5). -/
def cycle (P : Params) (p : HostPins) (s : State) : Host.Outcome State Fault Refusal :=
  if p.rst then .next (s.resetWith P)
  else match s.fsm with
    | .halted => .next (s.haltedStep p)
    | .running => runStep P.opcodes s

/-- One step of the machine whose parameters are `P` (R11): the pins the host drives in it are taken from its coming
inputs, and the core goes on under them. -/
def stepWith (P : Params) (s : State) : Host.Outcome State Fault Refusal := cycle P s.nextPins s.dropPins

/-- The machine as a function of the parameters of R11, from power-up and a first reset on (R171). -/
def machineOf (P : Params) : Host.Core where
  State := State
  Fault := Fault
  Refusal := Refusal
  step := stepWith P
  reset := State.powerUp P

end Sys2Proof.Machine
end

