-- ==== Sys2Proof/Machine/Step.lean ====
section
/-! DEFINITION. The step of the machine, and the placing of an instruction where it fetches. -/

namespace Sys2Proof.Machine

/-- One step of the machine at the default parameters of R11. -/
def step (s : State) : Host.Outcome State Fault Refusal := stepWith Config.params s

/-- `s` with the instruction of a table word stored where the next step fetches it, at `pc`, and with the core Running
and no host input pending, so that the next step runs it (log entry 10). -/
def State.withFetchWord (s : State) (nbits w : Nat) : State := s.placeAtPc (tableBytes nbits w)

end Sys2Proof.Machine
end

