-- ==== Sys2Proof/Machine/Assembly.lean ====
section
/-! DEFINITION. The spec's spelling of an instruction (R83): the long handler names, the short mnemonics, and operands
separated by commas. No behaviour rests on it. -/

namespace Sys2Proof.Machine

/-- The long name of a handler (R76, R83). -/
def longName : Handler → String
  | .halt => "HALT"
  | .loadImmediate => "LOAD_IMMEDIATE"
  | .printRegister => "PRINT_REGISTER"
  | .multiply => "MULTIPLY"
  | .compare => "COMPARE"
  | .jump => "JUMP"
  | .jumpIfEqual => "JUMP_IF_EQUAL"
  | .jumpIfNotEqual => "JUMP_IF_NOT_EQUAL"
  | .push => "PUSH"
  | .pop => "POP"

/-- The short mnemonic of a handler (R76, R83). -/
def shortName : Handler → String
  | .halt => "HLT"
  | .loadImmediate => "LDI"
  | .printRegister => "PRN"
  | .multiply => "MUL"
  | .compare => "CMP"
  | .jump => "JMP"
  | .jumpIfEqual => "JEQ"
  | .jumpIfNotEqual => "JNE"
  | .push => "PUSH"
  | .pop => "POP"

/-- A register operand (R83): `R0` to `R7`, and the plain index where no register has that number. -/
def regText (b : Byte) : String := if b.toNat ≤ 7 then "R" ++ toString b.toNat else toString b.toNat

/-- The operands of an instruction as text; an immediate is a decimal numeral (R83). -/
def operandText : Instr → List String
  | .halt => []
  | .loadImmediate reg value => [regText reg, toString value.toNat]
  | .printRegister reg => [regText reg]
  | .multiply regA regB => [regText regA, regText regB]
  | .compare regA regB => [regText regA, regText regB]
  | .jump reg => [regText reg]
  | .jumpIfEqual reg => [regText reg]
  | .jumpIfNotEqual reg => [regText reg]
  | .push reg => [regText reg]
  | .pop reg => [regText reg]

/-- An instruction as text under either set of names, which are interchangeable (R83). -/
def asmText (name : Handler → String) (i : Instr) : String :=
  match operandText i with
  | [] => name i.handler
  | ops => name i.handler ++ " " ++ String.intercalate ", " ops

end Sys2Proof.Machine
end

