-- ==== Sys2Proof/Safety.lean ====
section
/-! DEFINITION. What counts as a good state and as the end of a run: the invariant of the reachable states, the two
kinds of end, and a hang (R180). -/

namespace Sys2Proof.Machine

/-- A fault record that a fault can have written (R150 to R152): the kind fits the recorded address, instruction
address and opcode under `OPCODE_MAP`. Address 256 is the only one past memory (R53). -/
def FaultRecord.Consistent (f : FaultRecord) (m : OpcodeMap) : Prop :=
  match f.kind with
  | .none => False
  | .decodeError => f.addr.toNat = f.pc.toNat ∧ decodeOp m f.opcode = none
  | .oobRegister => 8 ≤ f.addr.toNat ∧ f.addr.toNat ≤ 255 ∧ ∃ h : Handler, h ≠ .halt ∧ f.opcode = m.byteOf h
  | .oobMemoryOperand =>
    f.addr = 256#9 ∧ ∃ h : Handler, f.opcode = m.byteOf h ∧ 255 < f.pc.toNat + h.operandCount
  | .oobMemoryFetch =>
    f.addr = 256#9 ∧ ∃ h : Handler, h ≠ .halt ∧ h ≠ .jump ∧ f.opcode = m.byteOf h ∧ f.pc.toNat + h.length = 256

/-- What holds of every state a run from reset can reach, under `OPCODE_MAP`. -/
structure State.Inv (s : State) (m : OpcodeMap) : Prop where
  /-- memory is in its canonical form, within addresses 0..255 (R35) -/
  mem_wf : s.mem.wf = true
  /-- at most one flag is 1 (R29) -/
  flags_ok : s.flags.atMostOne = true
  /-- a core with a recorded fault is Halted (R153, R155) -/
  faulted_halted : s.fault.valid = true → s.fsm = .halted
  /-- without a fault every field of the record is 0 (R34) -/
  record_clear : s.fault.valid = false → s.fault = FaultRecord.clear
  /-- after a fault `pc` keeps the faulting instruction's address (R153) -/
  fault_pc : s.fault.valid = true → s.fault.pc = s.pc
  /-- the record says what a fault can say (R150 to R152) -/
  record_ok : s.fault.valid = true → s.fault.Consistent m

/-- A Halted core with no fault: a normal end of a run (R180). -/
def State.normalEnd (s : State) : Bool := decide (s.fsm = .halted) && !s.fault.valid

/-- A Halted core with a fault: a fault end of a run (R180). -/
def State.faultEnd (s : State) : Bool := decide (s.fsm = .halted) && s.fault.valid

/-- `n` steps under the parameters `P`, as `Host.Core.run` takes them (Laws: `runFor_eq_machineOf`, `runFor_eq_core`). -/
def runFor (P : Params) : Nat → State → Host.Outcome State Fault Refusal
  | 0, s => .next s
  | n + 1, s =>
    match stepWith P s with
    | .next t => runFor P n t
    | .fault r => .fault r
    | .refused r => .refused r

/-- The host asserts reset in none of the next `n` steps. -/
def State.NoResetFor (s : State) (n : Nat) : Prop := ∀ p ∈ s.hostIn.take n, p.rst = false

/-- A run from the Running state `s` ends after `n` steps in `t`: `t` is the first Halted state, and no reset cut the
run off (R180). -/
structure RunEnds (P : Params) (s : State) (n : Nat) (t : State) : Prop where
  starts : s.fsm = .running
  uncut : s.NoResetFor n
  reaches : runFor P n s = .next t
  ended : t.fsm = .halted
  first : ∀ k < n, ∀ u, runFor P k s = .next u → u.fsm = .running

/-- A run that never reaches Halted (R180). -/
def Hangs (P : Params) (s : State) : Prop := ∀ n : Nat, ∃ t, runFor P n s = .next t ∧ t.fsm = .running

/-- The bytes emitted between two states of a run (R104). -/
def runOutput (s t : State) : List Byte := t.out.drop s.out.length

end Sys2Proof.Machine
end

