-- ==== Sys2Proof/Certificates/Slice0/Obligations.lean ====
section
/-! DEFINITION. The statements for the provers, taken from the numbered rules of the spec. A statement about a step is
about the step under every choice `P` of the parameters of R11 (`stepWith`); the step of the host's machine is the one
at the defaults, which StepRunsTheDecodedInstruction, ResetAtAnyTime and EveryStepKeepsTheInvariant say of it too. `Claim` holds the few notions
they share; each is written out from the spec and not from a meaning of the model. -/

namespace Sys2Proof.Claim

open Sys2Proof.Machine

/-- `s` after a fault with this record and no other effect (R153); `opcode` is the byte read at `pc` (R34, R82). -/
def stopped (s : State) (kind : FaultKind) (addr : BitVec 9) (opcode : Byte) : State :=
  { s with
    fault := { valid := true, kind := kind, addr := addr, pc := s.pc, opcode := opcode }
    fsm := .halted }

/-- `s` executes an instruction in its next step: it is Running and the host does not assert reset (R170, R174). -/
def Executes (s : State) : Prop := s.fsm = .running ∧ s.nextPins.rst = false

/-- The bytes of `i` under `OPCODE_MAP` stand in memory at `pc`, all of them at addresses 0..255 (R70, R71). -/
def At (m : OpcodeMap) (i : Instr) (s : State) : Prop :=
  s.pc.toNat + i.handler.operandCount ≤ 255 ∧
    ∀ k (h : k < (encodeWith m i).length), s.mem.read (s.pc.toNat + k) = (encodeWith m i)[k]

/-- `i` ends with the sequential advance in `s`: it is no HALT, no JUMP and no taken conditional jump (R27). -/
def Advances (i : Instr) (s : State) : Prop :=
  match i.handler with
  | .halt => False
  | .jump => False
  | .jumpIfEqual => s.flags.e = false
  | .jumpIfNotEqual => s.flags.e = true
  | _ => True

/-- Two states that agree in everything but the flags G and L. -/
def SameButGL (s t : State) : Prop :=
  t = { s with flags := { g := t.flags.g, e := s.flags.e, l := t.flags.l } }

/-- Execute a list of instructions one after the other. -/
def execAll : List Instr → State → Option State
  | [], s => some s
  | i :: is, s =>
    match exec i s with
    | .next t => execAll is t
    | _ => none

/-- The host's pins of the next step are `p`, and `rest` follows. -/
def Driven (s : State) (p : HostPins) (rest : List HostPins) : Prop := s.hostIn = p :: rest

end Sys2Proof.Claim

open Sys2Proof Sys2Proof.Machine Sys2Proof.Claim

/-! ### Reset and encoding -/

/-- R38's table, under the default parameters of R11. -/
def Obligations.ResetLeavesTheTabledValues : Prop :=
  (∀ a, State.reset.mem.read a = 0x00) ∧ (∀ i : RegIdx, i ≠ 7 → State.reset.regs[i] = 0x00) ∧
  State.reset.regs[(7 : RegIdx)] = 0x00 ∧ State.reset.pc = 0x00 ∧
  State.reset.flags = { g := false, e := false, l := false } ∧ State.reset.fsm = .halted ∧
  State.reset.fault = { valid := false, kind := .none, addr := 0, pc := 0, opcode := 0 } ∧ State.reset.out = []

/-- R26: `pc` is 0 after reset, and HALT sets it to 0. -/
def Obligations.ProgramCounterZeroAfterResetAndHalt : Prop :=
  State.reset.pc = 0 ∧ ∀ s, ∃ t, exec .halt s = .next t ∧ t.pc = 0

/-- R76, R71: one instruction word of each row, written out in the bits of the encoding, decodes to its instruction. -/
def Obligations.TableWordsDecodeToTheirInstructions : Prop :=
  decode [0b00000001] = .ok (.halt, []) ∧
  decode [0b10000010, 0b00000011, 0b11001000] = .ok (.loadImmediate 3 200, []) ∧
  decode [0b01000111, 0b00000100] = .ok (.printRegister 4, []) ∧
  decode [0b10100010, 0b00000000, 0b00000001] = .ok (.multiply 0 1, []) ∧
  decode [0b10100111, 0b00000011, 0b00000100] = .ok (.compare 3 4, []) ∧
  decode [0b01010100, 0b00000101] = .ok (.jump 5, []) ∧
  decode [0b01010101, 0b00000010] = .ok (.jumpIfEqual 2, []) ∧
  decode [0b01010110, 0b00000010] = .ok (.jumpIfNotEqual 2, []) ∧
  decode [0b01000101, 0b00000111] = .ok (.push 7, []) ∧
  decode [0b01000110, 0b00000001] = .ok (.pop 1, [])

/-- R77's check: the operand count in bits 7 and 6, bit 5 for MULTIPLY and COMPARE, bit 4 for the three jumps. -/
def Obligations.OpcodeBitsFollowTheLayout : Prop :=
  ∀ h : Handler, (h.opcode.extractLsb 7 6).toNat = h.operandCount ∧
    (h.opcode.getLsbD 5 = true ↔ h = .multiply ∨ h = .compare) ∧
    (h.opcode.getLsbD 4 = true ↔ h = .jump ∨ h = .jumpIfEqual ∨ h = .jumpIfNotEqual)

/-- R80, over every injective `OPCODE_MAP`: DECODE answers with a handler exactly on that handler's opcode, and with
none exactly where no handler has the byte. -/
def Obligations.DecodeSelectsTheHandlerWithTheOpcode : Prop :=
  ∀ m : OpcodeMap, m.Injective → ∀ op : Byte,
    (∀ h, decodeOp m op = some h ↔ m.byteOf h = op) ∧ (decodeOp m op = none ↔ ∀ h, m.byteOf h ≠ op)

/-- Decoding an encoded instruction gives it back, with the bytes after it untouched, under every injective
`OPCODE_MAP` and for every operand byte. -/
def Obligations.DecodeOfEncodeIsTheInstruction : Prop :=
  ∀ (m : OpcodeMap) (i : Instr) (rest : List Byte), m.Injective → decodeWith m (encodeWith m i ++ rest) = .ok (i, rest)

/-- Nothing but an encoding decodes: under any `OPCODE_MAP` the bytes a decoder accepts are the encoding of its answer,
followed by the rest it returns. -/
def Obligations.DecodedBytesAreTheEncoding : Prop :=
  ∀ (m : OpcodeMap) (bytes : List Byte) (i : Instr) (rest : List Byte),
    decodeWith m bytes = .ok (i, rest) → bytes = encodeWith m i ++ rest

/-- R150 and R78: a byte that is no opcode stops the core with DECODE_ERROR and no other effect, under every
`OPCODE_MAP`; under the default one 246 bytes are none, the six that the rule names among them. -/
def Obligations.UnknownOpcodeRaisesDecodeError : Prop :=
  (∀ (P : Params) (s : State), Executes s → (∀ h : Handler, P.opcodes.byteOf h ≠ s.readByte s.pc) →
    stepWith P s = .next (stopped s.dropPins .decodeError (s.pc.setWidth 9) (s.readByte s.pc))) ∧
  ((List.range 256).filter fun n => (decodeOp Config.opcodeMap (BitVec.ofNat 8 n)).isNone).length = 246 ∧
  [0x00, 0xA0, 0xA1, 0xA8, 0x50, 0x11].all (fun op => (decodeOp Config.opcodeMap op).isNone) = true

/-! ### The instructions -/

/-- R100: HALT stops the run and clears `pc`, at every address, and changes nothing else. -/
def Obligations.HaltStopsAndClearsPc : Prop :=
  (∀ m, encodeWith m .halt = [m.halt]) ∧ Config.opcodeMap.halt = 0x01 ∧
  ∀ s, exec .halt s = .next { s with fsm := .halted, pc := 0 }

/-- R103: PRINT_REGISTER, its effect and each of its exceptions. -/
def Obligations.PrintRegisterEmitsTheRegister : Prop :=
  (∀ m reg, encodeWith m (.printRegister reg) = [m.printRegister, reg]) ∧ Config.opcodeMap.printRegister = 0x47 ∧
  ∀ (reg : Byte) (s : State),
    (∀ h : reg.toNat < 8, s.pc.toNat ≤ 253 →
      exec (.printRegister reg) s = .next { s with out := s.out ++ [s.regs[reg.toNat]], pc := s.pc + 2 }) ∧
    (∀ h : reg.toNat < 8, s.pc.toNat = 254 →
      exec (.printRegister reg) s =
        .next (stopped { s with out := s.out ++ [s.regs[reg.toNat]] } .oobMemoryFetch 256 (s.readByte s.pc))) ∧
    (s.pc.toNat = 255 → exec (.printRegister reg) s = .next (stopped s .oobMemoryOperand 256 (s.readByte s.pc))) ∧
    (s.pc.toNat ≤ 254 → 7 < reg.toNat →
      exec (.printRegister reg) s = .next (stopped s .oobRegister (reg.setWidth 9) (s.readByte s.pc)))

/-- R110: LOAD_IMMEDIATE, its effect and each of its exceptions. -/
def Obligations.LoadImmediateWritesTheConstant : Prop :=
  (∀ m reg value, encodeWith m (.loadImmediate reg value) = [m.loadImmediate, reg, value]) ∧ Config.opcodeMap.loadImmediate = 0x82 ∧
  ∀ (reg value : Byte) (s : State),
    (∀ h : reg.toNat < 8, s.pc.toNat ≤ 252 →
      exec (.loadImmediate reg value) s = .next { s with regs := s.regs.set reg.toNat value, pc := s.pc + 3 }) ∧
    (∀ h : reg.toNat < 8, s.pc.toNat = 253 →
      exec (.loadImmediate reg value) s =
        .next (stopped { s with regs := s.regs.set reg.toNat value } .oobMemoryFetch 256 (s.readByte s.pc))) ∧
    (254 ≤ s.pc.toNat → exec (.loadImmediate reg value) s = .next (stopped s .oobMemoryOperand 256 (s.readByte s.pc))) ∧
    (s.pc.toNat ≤ 253 → 7 < reg.toNat →
      exec (.loadImmediate reg value) s = .next (stopped s .oobRegister (reg.setWidth 9) (s.readByte s.pc)))

/-- R120 and R121's arithmetic: MULTIPLY, its effect and each of its exceptions; no flag changes. -/
def Obligations.MultiplyWritesTheLowByteOfTheProduct : Prop :=
  (∀ m regA regB, encodeWith m (.multiply regA regB) = [m.multiply, regA, regB]) ∧ Config.opcodeMap.multiply = 0xA2 ∧
  ∀ (regA regB : Byte) (s : State),
    (∀ (hA : regA.toNat < 8) (hB : regB.toNat < 8) (v : Byte),
      v.toNat = s.regs[regA.toNat].toNat * s.regs[regB.toNat].toNat % 256 →
      (s.pc.toNat ≤ 252 →
        exec (.multiply regA regB) s = .next { s with regs := s.regs.set regA.toNat v, pc := s.pc + 3 }) ∧
      (s.pc.toNat = 253 →
        exec (.multiply regA regB) s =
          .next (stopped { s with regs := s.regs.set regA.toNat v } .oobMemoryFetch 256 (s.readByte s.pc)))) ∧
    (254 ≤ s.pc.toNat → exec (.multiply regA regB) s = .next (stopped s .oobMemoryOperand 256 (s.readByte s.pc))) ∧
    (s.pc.toNat ≤ 253 → 7 < regA.toNat →
      exec (.multiply regA regB) s = .next (stopped s .oobRegister (regA.setWidth 9) (s.readByte s.pc))) ∧
    (s.pc.toNat ≤ 253 → regA.toNat ≤ 7 → 7 < regB.toNat →
      exec (.multiply regA regB) s = .next (stopped s .oobRegister (regB.setWidth 9) (s.readByte s.pc)))

/-- R122: COMPARE, its effect on the three flags and each of its exceptions; exactly one flag becomes 1. -/
def Obligations.CompareSetsTheFlagOfTheUnsignedOrder : Prop :=
  (∀ m regA regB, encodeWith m (.compare regA regB) = [m.compare, regA, regB]) ∧ Config.opcodeMap.compare = 0xA7 ∧
  ∀ (regA regB : Byte) (s : State),
    (∀ (hA : regA.toNat < 8) (hB : regB.toNat < 8) (f : Flags),
      (f.g = true ↔ s.regs[regB.toNat].toNat < s.regs[regA.toNat].toNat) →
      (f.e = true ↔ s.regs[regA.toNat].toNat = s.regs[regB.toNat].toNat) →
      (f.l = true ↔ s.regs[regA.toNat].toNat < s.regs[regB.toNat].toNat) →
      f.exactlyOne = true ∧
      (s.pc.toNat ≤ 252 → exec (.compare regA regB) s = .next { s with flags := f, pc := s.pc + 3 }) ∧
      (s.pc.toNat = 253 →
        exec (.compare regA regB) s = .next (stopped { s with flags := f } .oobMemoryFetch 256 (s.readByte s.pc)))) ∧
    (254 ≤ s.pc.toNat → exec (.compare regA regB) s = .next (stopped s .oobMemoryOperand 256 (s.readByte s.pc))) ∧
    (s.pc.toNat ≤ 253 → 7 < regA.toNat →
      exec (.compare regA regB) s = .next (stopped s .oobRegister (regA.setWidth 9) (s.readByte s.pc))) ∧
    (s.pc.toNat ≤ 253 → regA.toNat ≤ 7 → 7 < regB.toNat →
      exec (.compare regA regB) s = .next (stopped s .oobRegister (regB.setWidth 9) (s.readByte s.pc)))

/-- R130: JUMP, its effect and each of its exceptions; it never advances. A target equal to `pc` leaves the state as it
was, so the core goes on forever; a target whose byte is no opcode raises DECODE_ERROR on the next step, there. -/
def Obligations.JumpAssignsTheProgramCounter : Prop :=
  (∀ m reg, encodeWith m (.jump reg) = [m.jump, reg]) ∧ Config.opcodeMap.jump = 0x54 ∧
  ∀ (reg : Byte) (s : State),
    (∀ h : reg.toNat < 8, s.pc.toNat ≤ 254 → exec (.jump reg) s = .next { s with pc := s.regs[reg.toNat] }) ∧
    (s.pc.toNat = 255 → exec (.jump reg) s = .next (stopped s .oobMemoryOperand 256 (s.readByte s.pc))) ∧
    (s.pc.toNat ≤ 254 → 7 < reg.toNat → exec (.jump reg) s = .next (stopped s .oobRegister (reg.setWidth 9) (s.readByte s.pc))) ∧
    (∀ h : reg.toNat < 8, s.pc.toNat ≤ 254 → s.regs[reg.toNat] = s.pc → exec (.jump reg) s = .next s) ∧
    (∀ (P : Params) (h : reg.toNat < 8), P.opcodes.Injective → Executes s → At P.opcodes (.jump reg) s →
      s.dropPins.nextPins.rst = false → (∀ g : Handler, P.opcodes.byteOf g ≠ s.readByte s.regs[reg.toNat]) →
      ∃ t, stepWith P s = .next t ∧ t.pc = s.regs[reg.toNat] ∧
        stepWith P t = .next (stopped t.dropPins .decodeError (t.pc.setWidth 9) (s.readByte s.regs[reg.toNat])))

/-- R131: JUMP_IF_EQUAL, taken exactly when E is 1, and each of its exceptions. -/
def Obligations.JumpIfEqualBranchesOnTheEqualFlag : Prop :=
  (∀ m reg, encodeWith m (.jumpIfEqual reg) = [m.jumpIfEqual, reg]) ∧ Config.opcodeMap.jumpIfEqual = 0x55 ∧
  ∀ (reg : Byte) (s : State),
    (∀ h : reg.toNat < 8, s.pc.toNat ≤ 254 → s.flags.e = true →
      exec (.jumpIfEqual reg) s = .next { s with pc := s.regs[reg.toNat] }) ∧
    (reg.toNat < 8 → s.pc.toNat ≤ 253 → s.flags.e = false →
      exec (.jumpIfEqual reg) s = .next { s with pc := s.pc + 2 }) ∧
    (reg.toNat < 8 → s.pc.toNat = 254 → s.flags.e = false →
      exec (.jumpIfEqual reg) s = .next (stopped s .oobMemoryFetch 256 (s.readByte s.pc))) ∧
    (s.pc.toNat = 255 → exec (.jumpIfEqual reg) s = .next (stopped s .oobMemoryOperand 256 (s.readByte s.pc))) ∧
    (s.pc.toNat ≤ 254 → 7 < reg.toNat →
      exec (.jumpIfEqual reg) s = .next (stopped s .oobRegister (reg.setWidth 9) (s.readByte s.pc)))

/-- R133: JUMP_IF_NOT_EQUAL, taken exactly when E is 0, and each of its exceptions; taken to its own address it leaves
the state as it was, so the core goes on forever. -/
def Obligations.JumpIfNotEqualBranchesOnTheClearFlag : Prop :=
  (∀ m reg, encodeWith m (.jumpIfNotEqual reg) = [m.jumpIfNotEqual, reg]) ∧ Config.opcodeMap.jumpIfNotEqual = 0x56 ∧
  ∀ (reg : Byte) (s : State),
    (∀ h : reg.toNat < 8, s.pc.toNat ≤ 254 → s.flags.e = false →
      exec (.jumpIfNotEqual reg) s = .next { s with pc := s.regs[reg.toNat] }) ∧
    (reg.toNat < 8 → s.pc.toNat ≤ 253 → s.flags.e = true →
      exec (.jumpIfNotEqual reg) s = .next { s with pc := s.pc + 2 }) ∧
    (reg.toNat < 8 → s.pc.toNat = 254 → s.flags.e = true →
      exec (.jumpIfNotEqual reg) s = .next (stopped s .oobMemoryFetch 256 (s.readByte s.pc))) ∧
    (s.pc.toNat = 255 → exec (.jumpIfNotEqual reg) s = .next (stopped s .oobMemoryOperand 256 (s.readByte s.pc))) ∧
    (s.pc.toNat ≤ 254 → 7 < reg.toNat →
      exec (.jumpIfNotEqual reg) s = .next (stopped s .oobRegister (reg.setWidth 9) (s.readByte s.pc))) ∧
    (∀ h : reg.toNat < 8, s.pc.toNat ≤ 254 → s.flags.e = false → s.regs[reg.toNat] = s.pc →
      exec (.jumpIfNotEqual reg) s = .next s)

/-- R140 and R145's first item: PUSH, its effect and each of its exceptions; the register is read before SP changes. -/
def Obligations.PushDecrementsAndStores : Prop :=
  (∀ m reg, encodeWith m (.push reg) = [m.push, reg]) ∧ Config.opcodeMap.push = 0x45 ∧
  ∀ (reg : Byte) (s : State),
    (∀ h : reg.toNat < 8, s.pc.toNat ≤ 253 →
      exec (.push reg) s =
        .next { s with
          regs := s.regs.set 7 (s.regs[7] - 1)
          mem := s.mem.write (s.regs[7] - 1).toNat s.regs[reg.toNat]
          pc := s.pc + 2 }) ∧
    (∀ h : reg.toNat < 8, s.pc.toNat = 254 →
      exec (.push reg) s =
        .next (stopped { s with
          regs := s.regs.set 7 (s.regs[7] - 1)
          mem := s.mem.write (s.regs[7] - 1).toNat s.regs[reg.toNat] } .oobMemoryFetch 256 (s.readByte s.pc))) ∧
    (s.pc.toNat = 255 → exec (.push reg) s = .next (stopped s .oobMemoryOperand 256 (s.readByte s.pc))) ∧
    (s.pc.toNat ≤ 254 → 7 < reg.toNat → exec (.push reg) s = .next (stopped s .oobRegister (reg.setWidth 9) (s.readByte s.pc)))

/-- R142 and R145's second item: POP, its effect and each of its exceptions; the destination is written after SP, so
for register 7 the loaded byte wins. -/
def Obligations.PopLoadsAndIncrements : Prop :=
  (∀ m reg, encodeWith m (.pop reg) = [m.pop, reg]) ∧ Config.opcodeMap.pop = 0x46 ∧
  ∀ (reg : Byte) (s : State),
    (∀ h : reg.toNat < 8, s.pc.toNat ≤ 253 →
      exec (.pop reg) s =
        .next { s with
          regs := (s.regs.set 7 (s.regs[7] + 1)).set reg.toNat (s.mem.read s.regs[7].toNat)
          pc := s.pc + 2 }) ∧
    (∀ h : reg.toNat < 8, s.pc.toNat = 254 →
      exec (.pop reg) s =
        .next (stopped { s with
          regs := (s.regs.set 7 (s.regs[7] + 1)).set reg.toNat (s.mem.read s.regs[7].toNat) } .oobMemoryFetch 256 (s.readByte s.pc))) ∧
    (s.pc.toNat = 255 → exec (.pop reg) s = .next (stopped s .oobMemoryOperand 256 (s.readByte s.pc))) ∧
    (s.pc.toNat ≤ 254 → 7 < reg.toNat → exec (.pop reg) s = .next (stopped s .oobRegister (reg.setWidth 9) (s.readByte s.pc)))

/-- R145: `PUSH 7` stores the SP of before the instruction at SP - 1 and leaves SP - 1; `POP 7` leaves SP equal to the
byte read from the old top. -/
def Obligations.StackPointerAsStackOperand : Prop :=
  ∀ s : State, s.pc.toNat ≤ 253 →
    (∃ t, exec (.push 7) s = .next t ∧ t.mem.read (s.regs[7] - 1).toNat = s.regs[7] ∧ t.regs[7] = s.regs[7] - 1) ∧
    (∃ t, exec (.pop 7) s = .next t ∧ t.regs[7] = s.mem.read s.regs[7].toNat)

/-- R23: SP is register 7. LOAD_IMMEDIATE to register 7 sets the SP that PUSH then decrements; PRINT_REGISTER of
register 7 emits SP. -/
def Obligations.StackPointerIsRegisterSeven : Prop :=
  ∀ (s : State) (v : Byte), s.pc.toNat ≤ 250 →
    (∃ t, exec (.loadImmediate 7 v) s = .next t ∧ t.sp = v ∧
      ∀ reg : Byte, reg.toNat < 8 → ∃ u, exec (.push reg) t = .next u ∧ u.regs[7] = v - 1) ∧
    (∃ t, exec (.printRegister 7) s = .next t ∧ t.out = s.out ++ [s.sp])

/-- R24: what PUSH, POP and MULTIPLY write to a register is the value modulo 256; SP wraps from 0x00 to 0xFF and back. -/
def Obligations.RegisterWritesAreModulo256 : Prop :=
  ∀ (s : State) (reg regB : Byte), reg.toNat < 8 → regB.toNat < 8 → s.pc.toNat ≤ 252 →
    (∃ t, exec (.push reg) s = .next t ∧ t.sp.toNat = (s.sp.toNat + 255) % 256 ∧ (s.sp = 0x00 → t.sp = 0xFF)) ∧
    (reg.toNat ≠ 7 → ∃ t, exec (.pop reg) s = .next t ∧ t.sp.toNat = (s.sp.toNat + 1) % 256 ∧
      (s.sp = 0xFF → t.sp = 0x00)) ∧
    (∀ a b : RegIdx, a.val = reg.toNat → b.val = regB.toNat → ∃ t, exec (.multiply reg regB) s = .next t ∧
      (t.reg a).toNat = (s.reg a).toNat * (s.reg b).toNat % 256)

/-! ### Frames -/

/-- The frame of LOAD_IMMEDIATE and MULTIPLY: only the destination register changes among registers; flags, memory and
output never change; without a fault the fault record and the FSM state are unchanged too. -/
def Obligations.FrameOfRegisterWriters : Prop :=
  ∀ (i : Instr) (dst : Byte) (s t : State),
    ((∃ v, i = .loadImmediate dst v) ∨ (∃ b, i = .multiply dst b)) → exec i s = .next t →
    (∀ j : RegIdx, j.val ≠ dst.toNat → t.regs[j] = s.regs[j]) ∧ t.flags = s.flags ∧
    (∀ a, t.mem.read a = s.mem.read a) ∧ t.out = s.out ∧ t.hostIn = s.hostIn ∧
    (i.wellFormed = true → s.pc.toNat ≤ 252 → t.fault = s.fault ∧ t.fsm = s.fsm)

/-- The frame of PRINT_REGISTER, COMPARE and the three jumps: no register and no byte of memory changes; flags change
only by COMPARE, the output only by PRINT_REGISTER. -/
def Obligations.FrameOfReaders : Prop :=
  ∀ (i : Instr) (s t : State),
    i.handler ∈ [Handler.printRegister, .compare, .jump, .jumpIfEqual, .jumpIfNotEqual] → exec i s = .next t →
    (∀ j : RegIdx, t.regs[j] = s.regs[j]) ∧ (∀ a, t.mem.read a = s.mem.read a) ∧
    (i.handler ≠ .compare → t.flags = s.flags) ∧ (i.handler ≠ .printRegister → t.out = s.out) ∧
    t.hostIn = s.hostIn ∧
    (i.wellFormed = true → s.pc.toNat ≤ 252 → t.fault = s.fault ∧ t.fsm = s.fsm)

/-- The frame of PUSH: no register but SP and no byte of memory but the one at SP - 1 changes. -/
def Obligations.FrameOfPush : Prop :=
  ∀ (reg : Byte) (s t : State), exec (.push reg) s = .next t →
    (∀ j : RegIdx, j ≠ spIndex → t.regs[j] = s.regs[j]) ∧ t.flags = s.flags ∧
    (∀ a, a ≠ (s.sp - 1).toNat → t.mem.read a = s.mem.read a) ∧ t.out = s.out ∧ t.hostIn = s.hostIn ∧
    (reg.toNat < 8 → s.pc.toNat ≤ 253 → t.fault = s.fault ∧ t.fsm = s.fsm)

/-- The frame of POP: no register but SP and the destination changes, and no byte of memory. -/
def Obligations.FrameOfPop : Prop :=
  ∀ (reg : Byte) (s t : State), exec (.pop reg) s = .next t →
    (∀ j : RegIdx, j ≠ spIndex → j.val ≠ reg.toNat → t.regs[j] = s.regs[j]) ∧ t.flags = s.flags ∧
    (∀ a, t.mem.read a = s.mem.read a) ∧ t.out = s.out ∧ t.hostIn = s.hostIn ∧
    (reg.toNat < 8 → s.pc.toNat ≤ 253 → t.fault = s.fault ∧ t.fsm = s.fsm)

/-- R101: HALT changes only the FSM state and `pc`. -/
def Obligations.FrameOfHalt : Prop :=
  ∀ s t : State, exec .halt s = .next t →
    (∀ j : RegIdx, t.regs[j] = s.regs[j]) ∧ t.flags = s.flags ∧ (∀ a, t.mem.read a = s.mem.read a) ∧
    t.out = s.out ∧ t.fault = s.fault ∧ t.hostIn = s.hostIn

/-! ### Faults -/

/-- R151 and R22: with its operand bytes in memory, an instruction whose first bad register index is `b` stops with
OOB_REGISTER recording `b`, and changes nothing else; no other instruction raises that kind. -/
def Obligations.BadRegisterIndexRaisesOutOfBounds : Prop :=
  ∀ (i : Instr) (s : State), s.pc.toNat + i.handler.operandCount ≤ 255 →
    (∀ b, i.regOperands.find? (fun b => decide (7 < b.toNat)) = some b →
      exec i s = .next (stopped s .oobRegister (b.setWidth 9) (s.readByte s.pc))) ∧
    (i.wellFormed = true → s.fault.kind ≠ .oobRegister → ∀ t, exec i s = .next t → t.fault.kind ≠ .oobRegister)

/-- R152: an instruction raises OOB_MEMORY_OPERAND exactly when one of its operand bytes would lie past address 255, and
OOB_MEMORY_FETCH exactly when it advances to 256; both record address 256, `pc` and the opcode. No data access of PUSH
or POP raises either. -/
def Obligations.AddressPastMemoryRaisesOutOfBounds : Prop :=
  (∀ (P : Params) (s : State) (h : Handler), P.opcodes.Injective → Executes s → s.readByte s.pc = P.opcodes.byteOf h →
    255 < s.pc.toNat + h.operandCount →
    h ≠ .halt ∧ stepWith P s = .next (stopped s.dropPins .oobMemoryOperand 256 (P.opcodes.byteOf h))) ∧
  ∀ (i : Instr) (s t : State), s.fault = FaultRecord.clear → exec i s = .next t →
    (t.fault.kind = .oobMemoryOperand ↔ 255 < s.pc.toNat + i.handler.operandCount) ∧
    (t.fault.kind = .oobMemoryFetch ↔
      i.wellFormed = true ∧ Advances i s ∧ s.pc.toNat + (encode i).length = 256) ∧
    (t.fault.kind = .oobMemoryOperand ∨ t.fault.kind = .oobMemoryFetch →
      t.fault = { valid := true, kind := t.fault.kind, addr := 256, pc := s.pc, opcode := s.readByte s.pc })

/-- R27: the sequential advance of every instruction that makes one; past the top of memory it faults, keeps `pc` and
keeps the instruction's effects, which are those the same instruction has at address 0. -/
def Obligations.SequentialAdvanceNeverWraps : Prop :=
  (Handler.loadImmediate.length = 3 ∧ Handler.multiply.length = 3 ∧ Handler.compare.length = 3 ∧
    Handler.printRegister.length = 2 ∧ Handler.push.length = 2 ∧ Handler.pop.length = 2 ∧
    Handler.jumpIfEqual.length = 2 ∧ Handler.jumpIfNotEqual.length = 2) ∧
  ∀ (i : Instr) (s : State), i.wellFormed = true → Advances i s → s.pc.toNat + i.handler.operandCount ≤ 255 →
    ∃ t u, exec i s = .next t ∧ exec i { s with pc := 0 } = .next u ∧
      t.regs = u.regs ∧ t.mem = u.mem ∧ t.flags = u.flags ∧ t.out = u.out ∧
      (s.pc.toNat + i.handler.length ≤ 255 →
        t.pc.toNat = s.pc.toNat + i.handler.length ∧ t.fsm = s.fsm ∧ t.fault = s.fault) ∧
      (255 < s.pc.toNat + i.handler.length →
        t.pc = s.pc ∧ t.fsm = .halted ∧
        t.fault = { valid := true, kind := .oobMemoryFetch, addr := 256, pc := s.pc, opcode := s.readByte s.pc })

/-- R153: what a fault leaves, whatever its kind. -/
def Obligations.FaultEntryRecordsAndStops : Prop :=
  ∀ (P : Params) (s t : State), Executes s → s.fault.valid = false → stepWith P s = .next t → t.fault.valid = true →
    t.fsm = .halted ∧ t.pc = s.pc ∧ t.fault.pc = s.pc ∧ t.fault.opcode = s.readByte s.pc ∧
    (t.fault.kind ≠ .oobMemoryFetch → t = { s.dropPins with fault := t.fault, fsm := .halted }) ∧
    (t.fault.kind = .oobMemoryFetch → ∃ i u, At P.opcodes i s ∧ exec i { s with pc := 0 } = .next u ∧
      t.regs = u.regs ∧ t.mem = u.mem ∧ t.flags = u.flags ∧ t.out = u.out)

/-- R157: the fault of an instruction is the first condition met in the order of the rule. -/
def Obligations.FaultPriorityOrder : Prop :=
  ∀ (P : Params) (s t : State), P.opcodes.Injective → Executes s → s.fault = FaultRecord.clear →
    stepWith P s = .next t →
    ((∀ h : Handler, P.opcodes.byteOf h ≠ s.readByte s.pc) → t.fault.kind = .decodeError) ∧
    (∀ h : Handler, P.opcodes.byteOf h = s.readByte s.pc → 255 < s.pc.toNat + h.operandCount →
      t.fault.kind = .oobMemoryOperand ∧ t.fault.addr = 256) ∧
    (∀ i, At P.opcodes i s →
      (∀ b, i.regOperands.find? (fun b => decide (7 < b.toNat)) = some b →
        t.fault.kind = .oobRegister ∧ t.fault.addr = b.setWidth 9) ∧
      (i.wellFormed = true → Advances i s → s.pc.toNat + i.handler.length = 256 → t.fault.kind = .oobMemoryFetch) ∧
      (i.wellFormed = true → ¬ (Advances i s ∧ s.pc.toNat + i.handler.length = 256) → t.fault = FaultRecord.clear))

/-- R155: a recorded fault stays, and the core stays Halted, over any number of steps without reset, whatever else the
host does; a reset then clears it, and a start in the step right after the reset runs the core. That a start acts in
that very step is the model's reading of R170 (log entry 4, DEDUCED). -/
def Obligations.FaultIsStickyUntilReset : Prop :=
  ∀ P : Params,
    (∀ (n : Nat) (s t : State), s.fault.valid = true → s.fsm = .halted → s.NoResetFor n →
      runFor P n s = .next t → t.fault = s.fault ∧ t.fsm = .halted) ∧
    ∀ (s : State) (p q : HostPins) (rest : List HostPins), s.hostIn = p :: q :: rest → p.rst = true → q.rst = false →
      q.start = true →
      ∃ t u, stepWith P s = .next t ∧ t.fault.valid = false ∧ stepWith P t = .next u ∧ u.fsm = .running

/-! ### The step, the FSM and the host -/

/-- A step of a Running core whose bytes at `pc` decode runs the decoded instruction, on the state whose host pins of
this step are taken: the host's step, and the step under every injective `OPCODE_MAP`. -/
def Obligations.StepRunsTheDecodedInstruction : Prop :=
  (∀ (s : State) (i : Instr), Executes s →
    (∀ rest, decode (s.readByte s.pc :: operandWindow s) = .ok (i, rest) → step s = exec i s.dropPins) ∧
    (At Config.opcodeMap i s → step s = exec i s.dropPins)) ∧
  (∀ (P : Params) (s : State) (i : Instr), Executes s →
    (∀ rest, decodeWith P.opcodes (s.readByte s.pc :: operandWindow s) = .ok (i, rest) →
      stepWith P s = exec i s.dropPins) ∧
    (P.opcodes.Injective → At P.opcodes i s → stepWith P s = exec i s.dropPins)) ∧
  ∀ s : State, step s = stepWith Config.params s

/-- R174's last sentences: every state has a next state, and a step emits at most one event; R104: events already
emitted stay. The step is deterministic because it is a function. -/
def Obligations.StepAnswersWithAtMostOneEvent : Prop :=
  ∀ (P : Params) (s : State), ∃ t, stepWith P s = .next t ∧ (t.out = s.out ∨ ∃ v, t.out = s.out ++ [v])

/-- R32, with R155, R167, R170 and R173: Halted after reset; the FSM leaves Halted exactly by an honoured start, and
leaves Running exactly by HALT, a fault or reset; a Halted core fetches and executes nothing, and all its state stays,
memory too where the host does not write it. That reset wins over a start in one step is the model's reading (log entry
5, DEDUCED), and so is the idle Halted step (log entry 11, DEDUCED). -/
def Obligations.FsmTransitions : Prop :=
  State.reset.fsm = .halted ∧
  ∀ (P : Params) (s t : State), P.opcodes.Injective → stepWith P s = .next t →
    (s.fsm = .halted →
      (t.fsm = .running ↔ s.nextPins.start = true ∧ s.nextPins.rst = false ∧ s.fault.valid = false)) ∧
    (s.fsm = .halted → s.nextPins.rst = false →
      t.regs = s.regs ∧ t.pc = s.pc ∧ t.flags = s.flags ∧ t.fault = s.fault ∧ t.out = s.out ∧
      (s.nextPins.ldWe = false → t.mem = s.mem)) ∧
    (s.fsm = .running → s.fault.valid = false →
      (t.fsm = .halted ↔
        s.nextPins.rst = true ∨ s.readByte s.pc = P.opcodes.byteOf .halt ∨ t.fault.valid = true)) ∧
    (s.fsm = .running → t.fsm = .halted →
      s.nextPins.rst = true ∨ s.readByte s.pc = P.opcodes.byteOf .halt ∨ t.fault.valid = true)

/-- R173: the run entry. -/
def Obligations.StartEntersRunningOnlyFromHaltedWithoutFault : Prop :=
  ∀ (P : Params) (s : State) (p : HostPins) (rest : List HostPins), Driven s p rest → p.rst = false → p.start = true →
    (s.fsm = .halted → s.fault.valid = false →
      ∃ t, stepWith P s = .next t ∧ t.fsm = .running ∧ t.pc = s.pc ∧ t.regs = s.regs ∧ t.flags = s.flags ∧
        t.fault = s.fault ∧ t.out = s.out) ∧
    (s.fsm = .halted → s.fault.valid = true → ∃ t, stepWith P s = .next t ∧ t.fsm = .halted ∧ t.fault = s.fault) ∧
    (s.fsm = .running → stepWith P s = stepWith P { s with hostIn := { p with start := false } :: rest })

/-- R176: a host write while Halted stores its byte and no other, one while Running does nothing, and an image of at most
256 bytes is loaded byte `i` at address `i`, the cells beyond it keeping their values. -/
def Obligations.HostWritesMemoryOnlyWhileHalted : Prop :=
  (∀ (P : Params) (s : State) (p : HostPins) (rest : List HostPins), Driven s p rest → p.rst = false → p.ldWe = true →
    (s.fsm = .halted → ∃ t, stepWith P s = .next t ∧ t.mem.read p.ldAddr.toNat = p.ldWdata ∧
      ∀ a, a ≠ p.ldAddr.toNat → t.mem.read a = s.mem.read a) ∧
    (s.fsm = .running → stepWith P s = stepWith P { s with hostIn := { p with ldWe := false } :: rest })) ∧
  ∀ (P : Params) (s : State) (image : List Byte) (rest : List HostPins), image.length ≤ 256 → s.fsm = .halted →
    s.hostIn = loadPins 0 image ++ rest →
    ∃ t, runFor P image.length s = .next t ∧ t.fsm = .halted ∧ t.hostIn = rest ∧ t.regs = s.regs ∧
      t.pc = s.pc ∧ ∀ a, t.mem.read a = if h : a < image.length then image[a] else s.mem.read a

/-- R177: the boot sequence, from any state, leaves the core Running at address 0 in the reset state with the image in
memory; beyond it memory holds 0 where reset clears RAM, and what it held where it does not. The model's readings: the
bytes emitted before stay in the history (log entry 1), the first image byte is loaded in the step right after reset
(log entry 4), and the defaults of the second clause are those of log entry 9. -/
def Obligations.BootSequenceRunsTheImage : Prop :=
  (∀ (P : Params) (s : State) (image : List Byte) (rest : List HostPins), image.length ≤ 256 →
    s.hostIn = bootPins image ++ rest →
    ∃ t, runFor P (image.length + 2) s = .next t ∧
      t = { s.resetWith P with mem := t.mem, fsm := .running, hostIn := rest } ∧
      ∀ a, t.mem.read a = if h : a < image.length then image[a] else if P.clearsRam then 0 else s.mem.read a) ∧
  ∀ (s : State) (image : List Byte) (rest : List HostPins), image.length ≤ 256 → s.hostIn = bootPins image ++ rest →
    ∃ t, runFor Config.params (image.length + 2) s = .next t ∧
      t = { State.reset with mem := t.mem, fsm := .running, out := s.out, hostIn := rest } ∧
      ∀ a, t.mem.read a = if h : a < image.length then image[a] else 0

/-- R170: reset at any time gives the reset state of R38, under every choice of the parameters and in the host's step
under the defaults (log entry 9); no event is emitted and, a model's choice (log entry 1), the events already emitted
stay in the history. -/
def Obligations.ResetAtAnyTime : Prop :=
  (∀ (P : Params) (s : State), s.nextPins.rst = true →
    stepWith P s = .next {
      mem := if P.clearsRam then [] else s.mem
      regs := #v[0, 0, 0, 0, 0, 0, 0, P.spReset]
      pc := 0
      flags := { g := false, e := false, l := false }
      fsm := .halted
      fault := { valid := false, kind := .none, addr := 0, pc := 0, opcode := 0 }
      out := s.out
      hostIn := s.hostIn.tail }) ∧
  ∀ s : State, s.nextPins.rst = true → step s = .next { State.reset with out := s.out, hostIn := s.hostIn.tail }

/-- R171 and R11: reset, and the first reset after power-up, clear RAM or keep it, as the parameter says, and set SP to
`SP_RESET`; after power-up without clearing, memory holds the free values (log entry 8). -/
def Obligations.ResetClearsRamParameter : Prop :=
  ∀ (P : Params) (s : State),
    (P.clearsRam = true → ∀ a, (s.resetWith P).mem.read a = 0 ∧ (State.powerUp P).mem.read a = 0) ∧
    (P.clearsRam = false → ∀ a, (s.resetWith P).mem.read a = s.mem.read a ∧
      (a < 256 → (State.powerUp P).mem.read a = Config.powerUpByte a)) ∧
    (s.resetWith P).regs[(7 : RegIdx)] = P.spReset ∧ (State.powerUp P).regs[(7 : RegIdx)] = P.spReset

/-- R179 and R31: what the status and debug outputs show, for every value the free readouts may take while Running. -/
def Obligations.StatusPortsShowTheState : Prop :=
  ∀ (draw : Nat) (p : HostPins) (s : State),
    let o := s.ports draw p
    (o.stRunning = true ↔ s.fsm = .running) ∧ o.stFaultValid = s.fault.valid ∧
    o.stFaultKind.toNat = (match s.fault.kind with
      | .none => 0 | .decodeError => 1 | .oobRegister => 2 | .oobMemoryOperand => 3 | .oobMemoryFetch => 4) ∧
    o.stFaultAddr = s.fault.addr ∧ o.stFaultPc = s.fault.pc ∧ o.stFaultOpcode = s.fault.opcode ∧ o.stPc = s.pc ∧
    o.stFlags.getLsbD 0 = s.flags.e ∧ o.stFlags.getLsbD 1 = s.flags.g ∧ o.stFlags.getLsbD 2 = s.flags.l ∧
    (s.fsm = .halted → o.ldRdata = s.mem.read p.ldAddr.toNat ∧
      ∀ r : RegIdx, r.val = p.dbgRsel.toNat → o.dbgRdata = s.regs[r])

/-- A table word placed by `withFetchWord` is the instruction the next step runs, wherever its bytes fit. -/
def Obligations.PlacedWordIsTheNextInstruction : Prop :=
  ∀ (s : State) (nbits w : Nat) (i : Instr), s.pc.toNat ≤ 253 → decodeTableWord nbits w = some i →
    step (s.withFetchWord nbits w) = exec i (s.withFetchWord nbits w)

/-! ### Whole-machine rules -/

/-- The invariant holds at reset, and at power-up under every choice of the parameters of R11. -/
def Obligations.ResetSatisfiesTheInvariant : Prop :=
  (∀ m : OpcodeMap, State.reset.Inv m) ∧ ∀ P : Params, (State.powerUp P).Inv P.opcodes

/-- Every step keeps the invariant, the host's step and the step under every choice of the parameters of R11: memory in
canonical form, at most one flag (R29), a faulted core Halted with its record and its `pc` (R153), and a record only a
fault can have written (R150 to R152, R53). -/
def Obligations.EveryStepKeepsTheInvariant : Prop :=
  (∀ s t : State, s.Inv Config.opcodeMap → step s = .next t → t.Inv Config.opcodeMap) ∧
  ∀ (P : Params) (s t : State), s.Inv P.opcodes → stepWith P s = .next t → t.Inv P.opcodes

/-- R29: only COMPARE writes flags; a COMPARE that passes its checks leaves exactly one set, one that does not leaves
them as they were. -/
def Obligations.OnlyCompareWritesFlags : Prop :=
  ∀ (i : Instr) (s t : State), exec i s = .next t →
    (i.handler ≠ .compare → t.flags = s.flags) ∧
    (i.handler = .compare → i.wellFormed = true → s.pc.toNat ≤ 253 → t.flags.exactlyOne = true) ∧
    (i.handler = .compare → i.wellFormed = false ∨ 254 ≤ s.pc.toNat → t.flags = s.flags)

/-- R105: an instruction that emits is PRINT_REGISTER, and a step that emits executes one. -/
def Obligations.OnlyPrintRegisterEmits : Prop :=
  (∀ (i : Instr) (s t : State), exec i s = .next t → t.out ≠ s.out → i.handler = .printRegister) ∧
  ∀ (P : Params) (s t : State), stepWith P s = .next t → t.out ≠ s.out →
    s.fsm = .running ∧ s.readByte s.pc = P.opcodes.byteOf .printRegister

/-- R50: an executed step changes memory only by a PUSH, and only at the address SP - 1. -/
def Obligations.OnlyPushWritesMemory : Prop :=
  ∀ (P : Params) (s t : State), Executes s → stepWith P s = .next t → ∀ a, t.mem.read a ≠ s.mem.read a →
    s.readByte s.pc = P.opcodes.byteOf .push ∧ a = (s.sp - 1).toNat

/-- R30: no program can observe G or L: two machines that differ in them alone differ in them alone after any number
of steps, so they emit the same bytes and end alike. -/
def Obligations.GreaterAndLesserAreUnobservable : Prop :=
  ∀ (P : Params) (n : Nat) (s s' : State), SameButGL s s' →
    ∃ t t', runFor P n s = .next t ∧ runFor P n s' = .next t' ∧ SameButGL t t'

/-- R180 and R102: a run that ends without a fault ended by executing a HALT, with `pc` 0 afterwards. -/
def Obligations.NormalEndMeansHaltExecuted : Prop :=
  ∀ (P : Params) (s t : State) (n : Nat), RunEnds P s n t → t.fault.valid = false →
    t.pc = 0 ∧ ∃ m u, n = m + 1 ∧ runFor P m s = .next u ∧ u.fsm = .running ∧
      u.readByte u.pc = P.opcodes.byteOf .halt

/-- R130's hang: a JUMP whose target is its own address runs forever, with nothing changed but the host's inputs taken. -/
def Obligations.JumpToItselfHangs : Prop :=
  ∀ (P : Params) (s : State) (reg : Byte) (h : reg.toNat < 8), P.opcodes.Injective → s.fsm = .running →
    At P.opcodes (.jump reg) s → s.regs[reg.toNat] = s.pc → (∀ p ∈ s.hostIn, p.rst = false) →
    Hangs P s ∧ ∀ n, runFor P n s = .next { s with hostIn := s.hostIn.drop n }

/-! ### Laws over several instructions -/

/-- R111: LOAD_IMMEDIATE followed at once by PRINT_REGISTER of the same register emits exactly the value. -/
def Obligations.LoadThenPrintEmitsTheValue : Prop :=
  ∀ (P : Params) (s : State) (reg v : Byte), P.opcodes.Injective → reg.toNat < 8 → s.pc.toNat ≤ 250 →
    s.fsm = .running → s.NoResetFor 2 → At P.opcodes (.loadImmediate reg v) s →
    At P.opcodes (.printRegister reg) { s with pc := s.pc + 3 } →
    ∃ t, runFor P 2 s = .next t ∧ t.out = s.out ++ [v]

/-- R143: PUSH r and then POP r', with SP and the byte it points at unchanged in between. -/
def Obligations.PushThenPopRestores : Prop :=
  ∀ (s : State) (r r' : Byte) (h : r.toNat < 8) (h' : r'.toNat < 8), s.pc.toNat ≤ 253 →
    ∃ t, exec (.push r) s = .next t ∧
      ∀ t' : State, t'.sp = t.sp → t'.readByte t.sp = t.readByte t.sp → t'.pc.toNat ≤ 253 →
        ∃ u, exec (.pop r') t' = .next u ∧ u.regs[r'.toNat] = s.regs[r.toNat] ∧ (r'.toNat ≠ 7 → u.sp = s.sp)

/-- R123: a second COMPARE of the same registers, with no write to either in between, leaves the same flags, and COMPARE
changes nothing but the flags and `pc`. -/
def Obligations.CompareIsIdempotent : Prop :=
  ∀ (s t' : State) (regA regB : Byte) (hA : regA.toNat < 8) (hB : regB.toNat < 8), s.pc.toNat ≤ 252 →
    t'.pc.toNat ≤ 252 → t'.regs[regA.toNat] = s.regs[regA.toNat] → t'.regs[regB.toNat] = s.regs[regB.toNat] →
    ∃ t u, exec (.compare regA regB) s = .next t ∧ exec (.compare regA regB) t' = .next u ∧ u.flags = t.flags ∧
      t.flags.exactlyOne = true ∧ t = { s with flags := t.flags, pc := t.pc }

/-- R132 and R134: after a COMPARE and any instructions that are none, the conditional jumps branch on whether its
operands were equal; before any COMPARE since reset, JUMP_IF_EQUAL does not branch and JUMP_IF_NOT_EQUAL does. -/
def Obligations.ConditionalJumpsFollowTheLastCompare : Prop :=
  ∀ (is : List Instr) (reg : Byte) (h : reg.toNat < 8), (∀ i ∈ is, i.handler ≠ .compare) →
    (∀ (s v : State) (regA regB : Byte) (hA : regA.toNat < 8) (hB : regB.toNat < 8), s.pc.toNat ≤ 253 →
      execAll (.compare regA regB :: is) s = some v → v.pc.toNat ≤ 253 →
      exec (.jumpIfEqual reg) v =
        .next { v with pc := if s.regs[regA.toNat] = s.regs[regB.toNat] then v.regs[reg.toNat] else v.pc + 2 } ∧
      exec (.jumpIfNotEqual reg) v =
        .next { v with pc := if s.regs[regA.toNat] = s.regs[regB.toNat] then v.pc + 2 else v.regs[reg.toNat] }) ∧
    (∀ v, execAll is State.reset = some v → v.pc.toNat ≤ 253 →
      exec (.jumpIfEqual reg) v = .next { v with pc := v.pc + 2 } ∧
      exec (.jumpIfNotEqual reg) v = .next { v with pc := v.regs[reg.toNat] })

/-- R64: a PUSH onto the next instruction's byte is what the very next fetch reads: an opcode of HALT stops the run
normally, and a byte that is no opcode raises DECODE_ERROR there. -/
def Obligations.PushedByteIsSeenByTheNextFetch : Prop :=
  ∀ (P : Params) (s : State) (reg : Byte) (h : reg.toNat < 8), P.opcodes.Injective → s.fsm = .running →
    s.NoResetFor 2 → s.pc.toNat ≤ 253 → At P.opcodes (.push reg) s → s.sp - 1 = s.pc + 2 →
    ∃ t u, stepWith P s = .next t ∧ stepWith P t = .next u ∧ t.pc = s.pc + 2 ∧
      t.readByte t.pc = s.regs[reg.toNat] ∧
      (s.regs[reg.toNat] = P.opcodes.byteOf .halt → u.fsm = .halted ∧ u.pc = 0 ∧ u.fault = s.fault) ∧
      ((∀ g : Handler, P.opcodes.byteOf g ≠ s.regs[reg.toNat]) →
        u = stopped t.dropPins .decodeError (t.pc.setWidth 9) s.regs[reg.toNat])

/-- R83: the long names and the short mnemonics name the handlers one to one, and an instruction's text is its name and
its operands. -/
def Obligations.NamesDistinguishHandlers : Prop :=
  (∀ h h' : Handler, longName h = longName h' → h = h') ∧ (∀ h h' : Handler, shortName h = shortName h' → h = h') ∧
  asmText shortName (.loadImmediate 3 200) = "LDI R3, 200" ∧ asmText longName .halt = "HALT"
end

