-- ==== Sys2Proof/Laws/Decode.lean ====
section
/-! SUPPORT. What the decoder's parts do, once each. -/

namespace Sys2Proof

theorem Handler.mem_all (h : Handler) : h ∈ Handler.all := by cases h <;> decide

/-- The lookup answers with a handler only if the byte is that handler's opcode (R80). -/
theorem decodeOp_sound {m : OpcodeMap} {op : Byte} {h : Handler} (hd : decodeOp m op = some h) : m.byteOf h = op := by
  simpa using List.find?_some hd

/-- The lookup answers with none only if no handler has the byte (R80). -/
theorem decodeOp_none {m : OpcodeMap} {op : Byte} (hd : decodeOp m op = none) (h : Handler) : m.byteOf h ≠ op := by
  simpa using List.find?_eq_none.mp hd h h.mem_all

/-- The lookup answers with none exactly on the bytes that are no handler's (R80). -/
theorem decodeOp_eq_none_iff {m : OpcodeMap} {op : Byte} : decodeOp m op = none ↔ ∀ h, m.byteOf h ≠ op := by
  refine ⟨fun hd h => decodeOp_none hd h, fun hn => ?_⟩
  cases hd : decodeOp m op with
  | none => rfl
  | some h => exact absurd (decodeOp_sound hd) (hn h)

/-- Under an injective map the lookup gives each handler's opcode back to the handler (R11, R80). -/
theorem decodeOp_byteOf {m : OpcodeMap} (hm : m.Injective) (h : Handler) : decodeOp m (m.byteOf h) = some h := by
  cases hd : decodeOp m (m.byteOf h) with
  | none => exact absurd rfl (decodeOp_none hd h)
  | some h' => rw [hm h' h (decodeOp_sound hd)]

/-- The default map is injective (R11, R76). -/
theorem Config.opcodeMap_injective : Config.opcodeMap.Injective := by
  intro h h'; cases h <;> cases h' <;> decide

/-- A handler's operands are found exactly when there are enough bytes, and are then its instruction's operand bytes
in order (R71, R82). -/
theorem takeOperands_cases (h : Handler) (bs : List Byte) :
    (∃ i : Instr, i.handler = h ∧ i.operandBytes = bs.take h.operandCount ∧ h.operandCount ≤ bs.length ∧
      takeOperands h bs = .ok (i, bs.drop h.operandCount)) ∨
    (bs.length < h.operandCount ∧ takeOperands h bs = .error (.missingOperand h (bs.length + 1))) := by
  rcases bs with _ | ⟨a, _ | ⟨b, bs⟩⟩ <;> cases h <;>
    simp [takeOperands, takeOne, takeTwo, Handler.operandCount, Instr.handler, Instr.operandBytes]

/-- An instruction has as many operand bytes as its handler takes (R71). -/
theorem Instr.length_operandBytes (i : Instr) : i.operandBytes.length = i.handler.operandCount := by cases i <;> rfl

/-- An instruction is its handler and its operand bytes. -/
theorem Instr.ext_of_bytes {i j : Instr} (hh : i.handler = j.handler) (hb : i.operandBytes = j.operandBytes) : i = j := by
  cases i <;> cases j <;> simp_all [Instr.handler, Instr.operandBytes]

theorem Handler.operandCount_le_two (h : Handler) : h.operandCount ≤ 2 := by cases h <;> decide

end Sys2Proof
end

