-- ==== Sys2Proof/Laws/Memory.lean ====
section
/-! SUPPORT. The laws of memory: a read after a write to the same address gives the byte written, a write leaves every
other address alone, and every operation keeps the canonical form. The first two hold of every list of cells. -/

namespace Sys2Proof.Machine

theorem Memory.read_erase_self (m : Memory) (a : Nat) : (m.erase a).read a = Memory.unlisted := by
  induction m with
  | nil => rfl
  | cons c m ih =>
    obtain ⟨b, v⟩ := c
    by_cases h : b = a
    · simpa [Memory.erase, h] using ih
    · simpa [Memory.erase, h, Memory.read, Ne.symm h] using ih

theorem Memory.read_erase_other (m : Memory) {a c : Nat} (hc : c ≠ a) : (m.erase a).read c = m.read c := by
  induction m with
  | nil => rfl
  | cons e m ih =>
    obtain ⟨b, v⟩ := e
    by_cases h : b = a
    · subst h
      simpa [Memory.erase, Memory.read, hc] using ih
    · by_cases hb : c = b
      · subst hb; simp [Memory.erase, Memory.read, h]
      · simpa [Memory.erase, Memory.read, h, hb] using ih

theorem Memory.read_insert_self (m : Memory) (a : Nat) (v : Byte) (h : ∀ c ∈ m, c.1 ≠ a) :
    (Memory.insert a v m).read a = v := by
  induction m with
  | nil => simp [Memory.insert, Memory.read]
  | cons e m ih =>
    obtain ⟨b, w⟩ := e
    have hb : b ≠ a := h (b, w) (by simp)
    by_cases hlt : a < b
    · simp [Memory.insert, hlt, Memory.read]
    · simpa [Memory.insert, hlt, Memory.read, Ne.symm hb] using ih fun c hc => h c (by simp [hc])

theorem Memory.read_insert_other (m : Memory) {a c : Nat} (v : Byte) (hc : c ≠ a) :
    (Memory.insert a v m).read c = m.read c := by
  induction m with
  | nil => simp [Memory.insert, Memory.read, hc]
  | cons e m ih =>
    obtain ⟨b, w⟩ := e
    by_cases hlt : a < b
    · simp [Memory.insert, hlt, Memory.read, hc]
    · simp [Memory.insert, hlt, Memory.read, ih]

theorem Memory.not_mem_erase (m : Memory) (a : Nat) : ∀ c ∈ m.erase a, c.1 ≠ a := by
  intro c hc
  simpa [Memory.erase] using (List.mem_filter.mp hc).2

/-- A read after a write to the same address gives the byte written. -/
@[simp] theorem Memory.read_write_self (m : Memory) (a : Nat) (v : Byte) : (m.write a v).read a = v := by
  unfold Memory.write
  split
  · next h => rw [h, Memory.read_erase_self]
  · exact Memory.read_insert_self _ _ _ (Memory.not_mem_erase m a)

/-- A write leaves every other address alone. -/
theorem Memory.read_write_other (m : Memory) {a c : Nat} (v : Byte) (hc : c ≠ a) :
    (m.write a v).read c = m.read c := by
  unfold Memory.write
  split
  · exact Memory.read_erase_other m hc
  · rw [Memory.read_insert_other _ _ hc, Memory.read_erase_other m hc]

theorem Memory.read_write (m : Memory) (a c : Nat) (v : Byte) :
    (m.write a v).read c = if c = a then v else m.read c := by
  split
  · next h => rw [h, Memory.read_write_self]
  · next h => exact Memory.read_write_other m v h

theorem Memory.wfFrom_mono {m : Memory} {lo lo' : Nat} (h : m.wfFrom lo = true) (hle : lo' ≤ lo) :
    m.wfFrom lo' = true := by
  cases m with
  | nil => rfl
  | cons c m =>
    obtain ⟨a, v⟩ := c
    simp only [Memory.wfFrom, Bool.and_eq_true, decide_eq_true_eq] at h ⊢
    exact ⟨⟨⟨Nat.le_trans hle h.1.1.1, h.1.1.2⟩, h.1.2⟩, h.2⟩

theorem Memory.wfFrom_erase {m : Memory} {lo : Nat} (a : Nat) (h : m.wfFrom lo = true) :
    (m.erase a).wfFrom lo = true := by
  induction m generalizing lo with
  | nil => rfl
  | cons c m ih =>
    obtain ⟨b, v⟩ := c
    simp only [Memory.wfFrom, Bool.and_eq_true, decide_eq_true_eq] at h
    by_cases hb : b = a
    · have := Memory.wfFrom_mono (ih h.2) (show lo ≤ b + 1 by omega)
      simpa [Memory.erase, hb] using this
    · have := ih h.2
      simp only [Memory.erase] at this
      simp [Memory.erase, hb, Memory.wfFrom, h.1, this]

theorem Memory.wfFrom_insert {m : Memory} {lo a : Nat} {v : Byte} (h : m.wfFrom lo = true) (hlo : lo ≤ a)
    (ha : a < 256) (hv : v ≠ Memory.unlisted) (hm : ∀ c ∈ m, c.1 ≠ a) :
    (Memory.insert a v m).wfFrom lo = true := by
  induction m generalizing lo with
  | nil => simp [Memory.insert, Memory.wfFrom, hlo, ha, hv]
  | cons c m ih =>
    obtain ⟨b, w⟩ := c
    have hb : b ≠ a := hm (b, w) (by simp)
    simp only [Memory.wfFrom, Bool.and_eq_true, decide_eq_true_eq] at h
    by_cases hlt : a < b
    · simp only [Memory.insert, hlt, if_true, Memory.wfFrom, Bool.and_eq_true, decide_eq_true_eq]
      exact ⟨⟨⟨hlo, ha⟩, hv⟩, ⟨⟨by omega, h.1.1.2⟩, h.1.2⟩, h.2⟩
    · have := ih h.2 (by omega) fun c hc => hm c (by simp [hc])
      simp [Memory.insert, hlt, Memory.wfFrom, h.1, this]

/-- A write to an address in bounds keeps the canonical form. -/
theorem Memory.wf_write {m : Memory} {a : Nat} (v : Byte) (h : m.wf = true) (ha : a < 256) :
    (m.write a v).wf = true := by
  unfold Memory.write
  split
  · exact Memory.wfFrom_erase a h
  · next hv => exact Memory.wfFrom_insert (Memory.wfFrom_erase a h) (Nat.zero_le _) ha hv (Memory.not_mem_erase m a)

/-- Empty memory, as reset leaves it, is in the canonical form. -/
theorem Memory.wf_nil : Memory.wf [] = true := rfl

/-- An address in canonical memory that lies below the bound reads as unlisted. -/
theorem Memory.read_below {m : Memory} {lo a : Nat} (h : m.wfFrom lo = true) (ha : a < lo) :
    m.read a = Memory.unlisted := by
  induction m generalizing lo with
  | nil => rfl
  | cons c m ih =>
    obtain ⟨b, v⟩ := c
    simp only [Memory.wfFrom, Bool.and_eq_true, decide_eq_true_eq] at h
    simp only [Memory.read, show a ≠ b by omega, if_false]
    exact ih h.2 (by omega)

/-- Two canonical memories that read alike everywhere are equal: the canonical form is unique. -/
theorem Memory.ext_of_read {m n : Memory} {lo : Nat} (hm : m.wfFrom lo = true) (hn : n.wfFrom lo = true)
    (h : ∀ a, m.read a = n.read a) : m = n := by
  induction m generalizing n lo with
  | nil =>
    cases n with
    | nil => rfl
    | cons d n =>
      obtain ⟨b, w⟩ := d
      simp only [Memory.wfFrom, Bool.and_eq_true, decide_eq_true_eq] at hn
      exact absurd (by simpa [Memory.read] using (h b).symm) hn.1.2
  | cons c m ih =>
    obtain ⟨a, v⟩ := c
    simp only [Memory.wfFrom, Bool.and_eq_true, decide_eq_true_eq] at hm
    cases n with
    | nil => exact absurd (by simpa [Memory.read] using h a) hm.1.2
    | cons d n =>
      obtain ⟨b, w⟩ := d
      simp only [Memory.wfFrom, Bool.and_eq_true, decide_eq_true_eq] at hn
      have hab : a = b := by
        rcases Nat.lt_trichotomy a b with hlt | heq | hgt
        · have := h a
          simp only [Memory.read, if_true, show a ≠ b by omega, if_false,
            Memory.read_below hn.2 (show a < b + 1 by omega)] at this
          exact absurd this hm.1.2
        · exact heq
        · have := h b
          simp only [Memory.read, if_true, show b ≠ a by omega, if_false,
            Memory.read_below hm.2 (show b < a + 1 by omega)] at this
          exact absurd this.symm hn.1.2
      subst hab
      have hvw : v = w := by simpa [Memory.read] using h a
      subst hvw
      have : m = n := by
        refine ih hm.2 hn.2 fun e => ?_
        by_cases he : e = a
        · rw [he, Memory.read_below hm.2 (by omega), Memory.read_below hn.2 (by omega)]
        · simpa [Memory.read, he] using h e
      rw [this]

/-- A byte written through an 8-bit address is what that address reads afterwards; every other address is unchanged. -/
theorem State.readByte_writeByte (s : State) (a v c : Byte) :
    (s.writeByte a v).readByte c = if c = a then v else s.readByte c := by
  by_cases h : c = a
  · simp [State.readByte, State.writeByte, h]
  · have : c.toNat ≠ a.toNat := fun e => h (BitVec.eq_of_toNat_eq e)
    simp [State.readByte, State.writeByte, h, Memory.read_write_other _ _ this]

/-- `MemRead` answers exactly at the addresses 0..255 (R51). -/
theorem State.memRead?_eq (s : State) (a : Nat) :
    s.memRead? a = if a ≤ 255 then some (s.mem.read a) else none := rfl

/-- An 8-bit address is in bounds: the checked port answers with the byte (R53). -/
theorem State.memRead?_toNat (s : State) (a : Byte) : s.memRead? a.toNat = some (s.readByte a) := by
  have := a.isLt
  simp [State.memRead?, State.readByte]; omega

/-- An 8-bit address is in bounds for the write port too (R53). -/
theorem State.memWrite?_toNat (s : State) (a v : Byte) : s.memWrite? a.toNat v = some (s.writeByte a v) := by
  have := a.isLt
  simp [State.memWrite?, State.writeByte]; omega

end Sys2Proof.Machine
end

