-- ==== Sys2Proof/Laws/State.lean ====
section
/-! SUPPORT. One lemma per field of the state and update of it, each true by computation. -/

namespace Sys2Proof.Machine

@[simp] theorem State.writeByte_mem (s : State) (a v : Byte) : (s.writeByte a v).mem = s.mem.write a.toNat v := rfl
@[simp] theorem State.writeByte_regs (s : State) (a v : Byte) : (s.writeByte a v).regs = s.regs := rfl
@[simp] theorem State.writeByte_pc (s : State) (a v : Byte) : (s.writeByte a v).pc = s.pc := rfl
@[simp] theorem State.writeByte_flags (s : State) (a v : Byte) : (s.writeByte a v).flags = s.flags := rfl
@[simp] theorem State.writeByte_fsm (s : State) (a v : Byte) : (s.writeByte a v).fsm = s.fsm := rfl
@[simp] theorem State.writeByte_fault (s : State) (a v : Byte) : (s.writeByte a v).fault = s.fault := rfl
@[simp] theorem State.writeByte_out (s : State) (a v : Byte) : (s.writeByte a v).out = s.out := rfl
@[simp] theorem State.writeByte_hostIn (s : State) (a v : Byte) : (s.writeByte a v).hostIn = s.hostIn := rfl

@[simp] theorem State.setReg_mem (s : State) (i : RegIdx) (v : Byte) : (s.setReg i v).mem = s.mem := rfl
@[simp] theorem State.setReg_regs (s : State) (i : RegIdx) (v : Byte) : (s.setReg i v).regs = s.regs.set i v := rfl
@[simp] theorem State.setReg_pc (s : State) (i : RegIdx) (v : Byte) : (s.setReg i v).pc = s.pc := rfl
@[simp] theorem State.setReg_flags (s : State) (i : RegIdx) (v : Byte) : (s.setReg i v).flags = s.flags := rfl
@[simp] theorem State.setReg_fsm (s : State) (i : RegIdx) (v : Byte) : (s.setReg i v).fsm = s.fsm := rfl
@[simp] theorem State.setReg_fault (s : State) (i : RegIdx) (v : Byte) : (s.setReg i v).fault = s.fault := rfl
@[simp] theorem State.setReg_out (s : State) (i : RegIdx) (v : Byte) : (s.setReg i v).out = s.out := rfl
@[simp] theorem State.setReg_hostIn (s : State) (i : RegIdx) (v : Byte) : (s.setReg i v).hostIn = s.hostIn := rfl

@[simp] theorem State.setFlags_mem (s : State) (f : Flags) : (s.setFlags f).mem = s.mem := rfl
@[simp] theorem State.setFlags_regs (s : State) (f : Flags) : (s.setFlags f).regs = s.regs := rfl
@[simp] theorem State.setFlags_pc (s : State) (f : Flags) : (s.setFlags f).pc = s.pc := rfl
@[simp] theorem State.setFlags_flags (s : State) (f : Flags) : (s.setFlags f).flags = f := rfl
@[simp] theorem State.setFlags_fsm (s : State) (f : Flags) : (s.setFlags f).fsm = s.fsm := rfl
@[simp] theorem State.setFlags_fault (s : State) (f : Flags) : (s.setFlags f).fault = s.fault := rfl
@[simp] theorem State.setFlags_out (s : State) (f : Flags) : (s.setFlags f).out = s.out := rfl
@[simp] theorem State.setFlags_hostIn (s : State) (f : Flags) : (s.setFlags f).hostIn = s.hostIn := rfl

@[simp] theorem State.emit_mem (s : State) (v : Byte) : (s.emit v).mem = s.mem := rfl
@[simp] theorem State.emit_regs (s : State) (v : Byte) : (s.emit v).regs = s.regs := rfl
@[simp] theorem State.emit_pc (s : State) (v : Byte) : (s.emit v).pc = s.pc := rfl
@[simp] theorem State.emit_flags (s : State) (v : Byte) : (s.emit v).flags = s.flags := rfl
@[simp] theorem State.emit_fsm (s : State) (v : Byte) : (s.emit v).fsm = s.fsm := rfl
@[simp] theorem State.emit_fault (s : State) (v : Byte) : (s.emit v).fault = s.fault := rfl
@[simp] theorem State.emit_out (s : State) (v : Byte) : (s.emit v).out = s.out ++ [v] := rfl
@[simp] theorem State.emit_hostIn (s : State) (v : Byte) : (s.emit v).hostIn = s.hostIn := rfl

@[simp] theorem State.raise_mem (s : State) (k : FaultKind) (a : Nat) (op : Byte) : (s.raise k a op).mem = s.mem := rfl
@[simp] theorem State.raise_regs (s : State) (k : FaultKind) (a : Nat) (op : Byte) : (s.raise k a op).regs = s.regs := rfl
@[simp] theorem State.raise_pc (s : State) (k : FaultKind) (a : Nat) (op : Byte) : (s.raise k a op).pc = s.pc := rfl
@[simp] theorem State.raise_flags (s : State) (k : FaultKind) (a : Nat) (op : Byte) : (s.raise k a op).flags = s.flags := rfl
@[simp] theorem State.raise_fsm (s : State) (k : FaultKind) (a : Nat) (op : Byte) : (s.raise k a op).fsm = .halted := rfl
@[simp] theorem State.raise_fault (s : State) (k : FaultKind) (a : Nat) (op : Byte) : (s.raise k a op).fault = { valid := true, kind := k, addr := BitVec.ofNat 9 a, pc := s.pc, opcode := op } := rfl
@[simp] theorem State.raise_out (s : State) (k : FaultKind) (a : Nat) (op : Byte) : (s.raise k a op).out = s.out := rfl
@[simp] theorem State.raise_hostIn (s : State) (k : FaultKind) (a : Nat) (op : Byte) : (s.raise k a op).hostIn = s.hostIn := rfl

@[simp] theorem State.branch_mem (s : State) (t : Byte) : (s.branch t).mem = s.mem := rfl
@[simp] theorem State.branch_regs (s : State) (t : Byte) : (s.branch t).regs = s.regs := rfl
@[simp] theorem State.branch_pc (s : State) (t : Byte) : (s.branch t).pc = t := rfl
@[simp] theorem State.branch_flags (s : State) (t : Byte) : (s.branch t).flags = s.flags := rfl
@[simp] theorem State.branch_fsm (s : State) (t : Byte) : (s.branch t).fsm = s.fsm := rfl
@[simp] theorem State.branch_fault (s : State) (t : Byte) : (s.branch t).fault = s.fault := rfl
@[simp] theorem State.branch_out (s : State) (t : Byte) : (s.branch t).out = s.out := rfl
@[simp] theorem State.branch_hostIn (s : State) (t : Byte) : (s.branch t).hostIn = s.hostIn := rfl

@[simp] theorem State.halt_mem (s : State) : s.halt.mem = s.mem := rfl
@[simp] theorem State.halt_regs (s : State) : s.halt.regs = s.regs := rfl
@[simp] theorem State.halt_pc (s : State) : s.halt.pc = 0 := rfl
@[simp] theorem State.halt_flags (s : State) : s.halt.flags = s.flags := rfl
@[simp] theorem State.halt_fsm (s : State) : s.halt.fsm = .halted := rfl
@[simp] theorem State.halt_fault (s : State) : s.halt.fault = s.fault := rfl
@[simp] theorem State.halt_out (s : State) : s.halt.out = s.out := rfl
@[simp] theorem State.halt_hostIn (s : State) : s.halt.hostIn = s.hostIn := rfl

@[simp] theorem State.dropPins_mem (s : State) : s.dropPins.mem = s.mem := rfl
@[simp] theorem State.dropPins_regs (s : State) : s.dropPins.regs = s.regs := rfl
@[simp] theorem State.dropPins_pc (s : State) : s.dropPins.pc = s.pc := rfl
@[simp] theorem State.dropPins_flags (s : State) : s.dropPins.flags = s.flags := rfl
@[simp] theorem State.dropPins_fsm (s : State) : s.dropPins.fsm = s.fsm := rfl
@[simp] theorem State.dropPins_fault (s : State) : s.dropPins.fault = s.fault := rfl
@[simp] theorem State.dropPins_out (s : State) : s.dropPins.out = s.out := rfl
@[simp] theorem State.dropPins_hostIn (s : State) : s.dropPins.hostIn = s.hostIn.tail := rfl

@[simp] theorem State.pushByte_mem (s : State) (v : Byte) : (s.pushByte v).mem = s.mem.write (s.sp - 1).toNat v := rfl
@[simp] theorem State.pushByte_regs (s : State) (v : Byte) : (s.pushByte v).regs = s.regs.set spIndex (s.sp - 1) := rfl
@[simp] theorem State.pushByte_pc (s : State) (v : Byte) : (s.pushByte v).pc = s.pc := rfl
@[simp] theorem State.pushByte_flags (s : State) (v : Byte) : (s.pushByte v).flags = s.flags := rfl
@[simp] theorem State.pushByte_fsm (s : State) (v : Byte) : (s.pushByte v).fsm = s.fsm := rfl
@[simp] theorem State.pushByte_fault (s : State) (v : Byte) : (s.pushByte v).fault = s.fault := rfl
@[simp] theorem State.pushByte_out (s : State) (v : Byte) : (s.pushByte v).out = s.out := rfl
@[simp] theorem State.pushByte_hostIn (s : State) (v : Byte) : (s.pushByte v).hostIn = s.hostIn := rfl

@[simp] theorem State.popInto_mem (s : State) (r : RegIdx) : (s.popInto r).mem = s.mem := rfl
@[simp] theorem State.popInto_regs (s : State) (r : RegIdx) : (s.popInto r).regs = (s.regs.set spIndex (s.sp + 1)).set r (s.readByte s.sp) := rfl
@[simp] theorem State.popInto_pc (s : State) (r : RegIdx) : (s.popInto r).pc = s.pc := rfl
@[simp] theorem State.popInto_flags (s : State) (r : RegIdx) : (s.popInto r).flags = s.flags := rfl
@[simp] theorem State.popInto_fsm (s : State) (r : RegIdx) : (s.popInto r).fsm = s.fsm := rfl
@[simp] theorem State.popInto_fault (s : State) (r : RegIdx) : (s.popInto r).fault = s.fault := rfl
@[simp] theorem State.popInto_out (s : State) (r : RegIdx) : (s.popInto r).out = s.out := rfl
@[simp] theorem State.popInto_hostIn (s : State) (r : RegIdx) : (s.popInto r).hostIn = s.hostIn := rfl

@[simp] theorem State.resetWith_mem (P : Params) (s : State) : (s.resetWith P).mem = if P.clearsRam then [] else s.mem := rfl
@[simp] theorem State.resetWith_regs (P : Params) (s : State) : (s.resetWith P).regs = #v[0, 0, 0, 0, 0, 0, 0, P.spReset] := rfl
@[simp] theorem State.resetWith_pc (P : Params) (s : State) : (s.resetWith P).pc = 0 := rfl
@[simp] theorem State.resetWith_flags (P : Params) (s : State) : (s.resetWith P).flags = Flags.clear := rfl
@[simp] theorem State.resetWith_fsm (P : Params) (s : State) : (s.resetWith P).fsm = .halted := rfl
@[simp] theorem State.resetWith_fault (P : Params) (s : State) : (s.resetWith P).fault = FaultRecord.clear := rfl
@[simp] theorem State.resetWith_out (P : Params) (s : State) : (s.resetWith P).out = s.out := rfl
@[simp] theorem State.resetWith_hostIn (P : Params) (s : State) : (s.resetWith P).hostIn = s.hostIn := rfl

@[simp] theorem State.readByte_dropPins (s : State) (a : Byte) : s.dropPins.readByte a = s.readByte a := rfl
@[simp] theorem State.opcodeByte_dropPins (s : State) : s.dropPins.opcodeByte = s.opcodeByte := rfl

/-- Reset at the default parameters is the reset state, but for the history and the host's coming inputs (R38). -/
theorem State.resetWith_params (s : State) :
    s.resetWith Config.params = { State.reset with out := s.out, hostIn := s.hostIn } := rfl

/-- Power-up and reset at the default parameters give the reset state (R171). -/
theorem State.powerUp_params : State.powerUp Config.params = State.reset := rfl

/-- What a register reads is a function of the register file alone. -/
theorem State.reg_of_regs {s t : State} (h : s.regs = t.regs) (i : RegIdx) : s.reg i = t.reg i := by
  simp [State.reg, h]

/-- What a byte of memory reads is a function of memory alone. -/
theorem State.readByte_of_mem {s t : State} (h : s.mem = t.mem) (a : Byte) : s.readByte a = t.readByte a := by
  simp [State.readByte, h]

end Sys2Proof.Machine
end

