-- ==== Sys2Proof/Laws/Ops.lean ====
section
/-! SUPPORT. For each shared operation, everything it can do. -/

namespace Sys2Proof.Machine

/-- A register write is seen by a read of that register and by no other (R21). -/
theorem State.reg_setReg (s : State) (i j : RegIdx) (v : Byte) :
    (s.setReg i v).reg j = if j = i then v else s.reg j := by
  simp [State.reg, State.setReg, Vector.getElem_set, Fin.ext_iff, eq_comm]

@[simp] theorem State.readByte_setReg (s : State) (i : RegIdx) (v a : Byte) :
    (s.setReg i v).readByte a = s.readByte a := rfl

@[simp] theorem State.reg_writeByte (s : State) (a v : Byte) (i : RegIdx) : (s.writeByte a v).reg i = s.reg i := rfl

/-- No instruction is longer than three bytes (R70). -/
theorem Handler.length_le_three (h : Handler) : h.length ≤ 3 := by cases h <;> decide

/-- The advance writes `pc` while the next address is in memory and faults otherwise (R27). -/
theorem State.advance_cases (s : State) (h : Handler) (op : Byte) :
    (s.pc.toNat + h.length ≤ 255 ∧ s.advance h op = { s with pc := BitVec.ofNat 8 (s.pc.toNat + h.length) }) ∨
    (255 < s.pc.toNat + h.length ∧ s.advance h op = s.raise .oobMemoryFetch (s.pc.toNat + h.length) op) := by
  by_cases hle : s.pc.toNat + h.length ≤ 255
  · exact .inl ⟨hle, by simp [State.advance, hle]⟩
  · exact .inr ⟨by omega, by simp [State.advance, hle]⟩

/-- The advance changes at most `pc`, the FSM state and the fault record (R27). -/
@[simp] theorem State.advance_mem (s : State) (h : Handler) (op : Byte) : (s.advance h op).mem = s.mem := by
  unfold State.advance; dsimp only; split <;> rfl
@[simp] theorem State.advance_regs (s : State) (h : Handler) (op : Byte) : (s.advance h op).regs = s.regs := by
  unfold State.advance; dsimp only; split <;> rfl
@[simp] theorem State.advance_flags (s : State) (h : Handler) (op : Byte) : (s.advance h op).flags = s.flags := by
  unfold State.advance; dsimp only; split <;> rfl
@[simp] theorem State.advance_out (s : State) (h : Handler) (op : Byte) : (s.advance h op).out = s.out := by
  unfold State.advance; dsimp only; split <;> rfl
@[simp] theorem State.advance_hostIn (s : State) (h : Handler) (op : Byte) : (s.advance h op).hostIn = s.hostIn := by
  unfold State.advance; dsimp only; split <;> rfl

/-- No operand lies past address 255 exactly when the last one does not (R82). -/
theorem operandOob_eq_none_iff (h : Handler) (pc : Byte) :
    operandOob h pc = none ↔ pc.toNat + h.operandCount ≤ 255 := by
  have := pc.isLt
  have := h.operandCount_le_two
  unfold operandOob
  split
  · simp; omega
  · split
    · simp; omega
    · simp; omega

/-- The first operand address past 255 is always 256 (R53). -/
theorem operandOob_eq_some {h : Handler} {pc : Byte} {a : Nat} (ho : operandOob h pc = some a) :
    a = 256 ∧ 255 < pc.toNat + h.operandCount := by
  have := pc.isLt
  unfold operandOob at ho
  split at ho
  · cases ho; omega
  · split at ho
    · cases ho; omega
    · cases ho

/-- The operand check stops with `OOB_MEMORY_OPERAND` at 256, or goes on (R82, R152). -/
theorem withOperands_cases (h : Handler) (s k : State) :
    (255 < s.pc.toNat + h.operandCount ∧ withOperands h s k = s.raise .oobMemoryOperand 256 s.opcodeByte) ∨
    (s.pc.toNat + h.operandCount ≤ 255 ∧ withOperands h s k = k) := by
  unfold withOperands
  cases ho : operandOob h s.pc with
  | none => exact .inr ⟨(operandOob_eq_none_iff h s.pc).mp ho, rfl⟩
  | some a => obtain ⟨rfl, hlt⟩ := operandOob_eq_some ho; exact .inl ⟨hlt, rfl⟩

/-- A byte below 8 names the register of that number (R22). -/
theorem regIndex?_lt {b : Byte} (h : b.toNat < 8) : regIndex? b = some ⟨b.toNat, h⟩ := by simp [regIndex?, h]

/-- A byte above 7 names no register (R22). -/
theorem regIndex?_ge {b : Byte} (h : 7 < b.toNat) : regIndex? b = none := by
  simp [regIndex?, show ¬ b.toNat < 8 by omega]

/-- The register check stops with `OOB_REGISTER`, or goes on with the register named (R81, R151). -/
theorem withReg_cases (b : Byte) (s : State) (k : RegIdx → State) :
    (7 < b.toNat ∧ withReg b s k = s.raise .oobRegister b.toNat s.opcodeByte) ∨
    (∃ r : RegIdx, r.val = b.toNat ∧ withReg b s k = k r) := by
  by_cases hb : b.toNat < 8
  · exact .inr ⟨⟨b.toNat, hb⟩, rfl, by simp [withReg, regIndex?_lt hb]⟩
  · exact .inl ⟨by omega, by simp [withReg, regIndex?_ge (show 7 < b.toNat by omega)]⟩

/-- An instruction with one register operand (formats `R` and `RI`): the two stops, or its body (R82, R157). -/
theorem onReg_cases (h : Handler) (reg : Byte) (s : State) (k : RegIdx → State) :
    (255 < s.pc.toNat + h.operandCount ∧ onReg h reg s k = s.raise .oobMemoryOperand 256 s.opcodeByte) ∨
    (s.pc.toNat + h.operandCount ≤ 255 ∧ 7 < reg.toNat ∧ onReg h reg s k = s.raise .oobRegister reg.toNat s.opcodeByte) ∨
    (s.pc.toNat + h.operandCount ≤ 255 ∧ ∃ r : RegIdx, r.val = reg.toNat ∧ onReg h reg s k = k r) := by
  unfold onReg
  obtain ⟨ho, he⟩ | ⟨ho, he⟩ := withOperands_cases h s (withReg reg s k)
  · exact .inl ⟨ho, he⟩
  · rw [he]
    obtain ⟨hr, he⟩ | ⟨r, hr, he⟩ := withReg_cases reg s k
    · exact .inr (.inl ⟨ho, hr, he⟩)
    · exact .inr (.inr ⟨ho, r, hr, he⟩)

/-- An instruction with two register operands (format `RR`): the stops, or its body (R82, R157). -/
theorem onRegReg_cases (h : Handler) (regA regB : Byte) (s : State) (k : RegIdx → RegIdx → State) :
    (255 < s.pc.toNat + h.operandCount ∧ onRegReg h regA regB s k = s.raise .oobMemoryOperand 256 s.opcodeByte) ∨
    (s.pc.toNat + h.operandCount ≤ 255 ∧ 7 < regA.toNat ∧
      onRegReg h regA regB s k = s.raise .oobRegister regA.toNat s.opcodeByte) ∨
    (s.pc.toNat + h.operandCount ≤ 255 ∧ regA.toNat ≤ 7 ∧ 7 < regB.toNat ∧
      onRegReg h regA regB s k = s.raise .oobRegister regB.toNat s.opcodeByte) ∨
    (s.pc.toNat + h.operandCount ≤ 255 ∧ ∃ a b : RegIdx, a.val = regA.toNat ∧ b.val = regB.toNat ∧
      onRegReg h regA regB s k = k a b) := by
  unfold onRegReg
  obtain ⟨ho, he⟩ | ⟨ho, he⟩ := withOperands_cases h s (withReg regA s fun a => withReg regB s fun b => k a b)
  · exact .inl ⟨ho, he⟩
  · rw [he]
    obtain ⟨hr, he⟩ | ⟨a, ha, he⟩ := withReg_cases regA s fun a => withReg regB s fun b => k a b
    · exact .inr (.inl ⟨ho, hr, he⟩)
    · rw [he]
      obtain ⟨hr, he⟩ | ⟨b, hb, he⟩ := withReg_cases regB s fun b => k a b
      · exact .inr (.inr (.inl ⟨ho, by have := a.isLt; omega, hr, he⟩))
      · exact .inr (.inr (.inr ⟨ho, a, b, ha, hb, he⟩))

/-! The same three operations, one lemma per case, for an instruction whose case is known. -/

theorem onReg_of_operand_past (h : Handler) (reg : Byte) (s : State) (k : RegIdx → State)
    (hp : 255 < s.pc.toNat + h.operandCount) : onReg h reg s k = s.raise .oobMemoryOperand 256 s.opcodeByte := by
  obtain ⟨_, e⟩ | ⟨hle, _⟩ | ⟨hle, _⟩ := onReg_cases h reg s k
  · exact e
  · omega
  · omega

theorem onReg_of_bad (h : Handler) {reg : Byte} (s : State) (k : RegIdx → State)
    (hp : s.pc.toNat + h.operandCount ≤ 255) (hr : 7 < reg.toNat) :
    onReg h reg s k = s.raise .oobRegister reg.toNat s.opcodeByte := by
  obtain ⟨_, _⟩ | ⟨_, _, e⟩ | ⟨_, r, hv, _⟩ := onReg_cases h reg s k
  · omega
  · exact e
  · have := r.isLt; omega

theorem onReg_of_ok (h : Handler) {reg : Byte} (s : State) (k : RegIdx → State)
    (hp : s.pc.toNat + h.operandCount ≤ 255) (hr : reg.toNat < 8) : onReg h reg s k = k ⟨reg.toNat, hr⟩ := by
  obtain ⟨_, _⟩ | ⟨_, _, _⟩ | ⟨_, r, hv, e⟩ := onReg_cases h reg s k
  · omega
  · omega
  · rw [e]; exact congrArg k (Fin.ext hv)

theorem onRegReg_of_operand_past (h : Handler) (regA regB : Byte) (s : State) (k : RegIdx → RegIdx → State)
    (hp : 255 < s.pc.toNat + h.operandCount) :
    onRegReg h regA regB s k = s.raise .oobMemoryOperand 256 s.opcodeByte := by
  obtain ⟨_, e⟩ | ⟨_, _⟩ | ⟨_, _⟩ | ⟨_, _⟩ := onRegReg_cases h regA regB s k
  · exact e
  all_goals omega

theorem onRegReg_of_bad_first (h : Handler) {regA : Byte} (regB : Byte) (s : State) (k : RegIdx → RegIdx → State)
    (hp : s.pc.toNat + h.operandCount ≤ 255) (hA : 7 < regA.toNat) :
    onRegReg h regA regB s k = s.raise .oobRegister regA.toNat s.opcodeByte := by
  obtain ⟨_, _⟩ | ⟨_, _, e⟩ | ⟨_, _, _⟩ | ⟨_, a, _, ha, _⟩ := onRegReg_cases h regA regB s k
  · omega
  · exact e
  · omega
  · have := a.isLt; omega

theorem onRegReg_of_bad_second (h : Handler) {regA regB : Byte} (s : State) (k : RegIdx → RegIdx → State)
    (hp : s.pc.toNat + h.operandCount ≤ 255) (hA : regA.toNat ≤ 7) (hB : 7 < regB.toNat) :
    onRegReg h regA regB s k = s.raise .oobRegister regB.toNat s.opcodeByte := by
  obtain ⟨_, _⟩ | ⟨_, _, _⟩ | ⟨_, _, _, e⟩ | ⟨_, _, b, _, hb, _⟩ := onRegReg_cases h regA regB s k
  · omega
  · omega
  · exact e
  · have := b.isLt; omega

theorem onRegReg_of_ok (h : Handler) {regA regB : Byte} (s : State) (k : RegIdx → RegIdx → State)
    (hp : s.pc.toNat + h.operandCount ≤ 255) (hA : regA.toNat < 8) (hB : regB.toNat < 8) :
    onRegReg h regA regB s k = k ⟨regA.toNat, hA⟩ ⟨regB.toNat, hB⟩ := by
  obtain ⟨_, _⟩ | ⟨_, _, _⟩ | ⟨_, _, _, _⟩ | ⟨_, a, b, ha, hb, e⟩ := onRegReg_cases h regA regB s k
  · omega
  · omega
  · omega
  · rw [e]; exact congrArg₂ k (Fin.ext ha) (Fin.ext hb)

theorem State.advance_of_le (s : State) (h : Handler) (op : Byte) (hp : s.pc.toNat + h.length ≤ 255) :
    s.advance h op = { s with pc := s.pc + BitVec.ofNat 8 h.length } := by
  obtain ⟨_, e⟩ | ⟨_, _⟩ := s.advance_cases h op
  · rw [e, show BitVec.ofNat 8 (s.pc.toNat + h.length) = s.pc + BitVec.ofNat 8 h.length from
      BitVec.eq_of_toNat_eq (by simp)]
  · omega

theorem State.advance_of_top (s : State) (h : Handler) (op : Byte) (hp : s.pc.toNat + h.length = 256) :
    s.advance h op = s.raise .oobMemoryFetch 256 op := by
  obtain ⟨_, _⟩ | ⟨_, e⟩ := s.advance_cases h op
  · omega
  · rw [e, hp]

/-- PUSH's data part stores the byte where SP then points, and changes no other register and no other byte (R140). -/
theorem State.pushByte_spec (s : State) (v : Byte) :
    (s.pushByte v).sp = s.sp - 1 ∧ (s.pushByte v).readByte (s.sp - 1) = v ∧
      (∀ j, j ≠ spIndex → (s.pushByte v).reg j = s.reg j) ∧
      ∀ a, a ≠ s.sp - 1 → (s.pushByte v).readByte a = s.readByte a := by
  refine ⟨?_, ?_, fun j hj => ?_, fun a ha => ?_⟩
  · simp [State.pushByte, State.sp, State.reg_setReg]
  · simp [State.pushByte, State.readByte_writeByte]
  · simp [State.pushByte, State.reg_setReg, hj]
  · simp only [State.pushByte, State.readByte_writeByte, if_neg ha, State.readByte_setReg]

/-- POP's data part: the destination holds the byte SP pointed at; another destination leaves SP incremented; no
other register and no byte of memory changes (R142, R145). -/
theorem State.popInto_spec (s : State) (r : RegIdx) :
    (s.popInto r).reg r = s.readByte s.sp ∧ (r ≠ spIndex → (s.popInto r).sp = s.sp + 1) ∧
      (∀ j, j ≠ spIndex → j ≠ r → (s.popInto r).reg j = s.reg j) ∧ (s.popInto r).mem = s.mem := by
  refine ⟨?_, fun h => ?_, fun j hj hr => ?_, rfl⟩
  · simp [State.popInto, State.reg_setReg]
  · simp [State.popInto, State.sp, State.reg_setReg, Ne.symm h]
  · simp [State.popInto, State.reg_setReg, hj, hr]

/-- COMPARE sets exactly one flag (R122). -/
theorem compareFlags_exactlyOne (a b : Byte) : (compareFlags a b).exactlyOne = true := by
  rcases Nat.lt_trichotomy a.toNat b.toNat with h | h | h
  · simp [compareFlags, Flags.exactlyOne, Flags.atMostOne, h, show ¬ b.toNat < a.toNat by omega, Nat.ne_of_lt h]
  · simp [compareFlags, Flags.exactlyOne, Flags.atMostOne, h]
  · simp [compareFlags, Flags.exactlyOne, Flags.atMostOne, h, show ¬ a.toNat < b.toNat by omega,
      show a.toNat ≠ b.toNat by omega]

/-- The three flags COMPARE sets, from the order of the operands (R122). -/
theorem compareFlags_eq {a b : Byte} {f : Flags} (hg : f.g = true ↔ b.toNat < a.toNat)
    (he : f.e = true ↔ a.toNat = b.toNat) (hl : f.l = true ↔ a.toNat < b.toNat) : compareFlags a b = f := by
  obtain ⟨g, e, l⟩ := f
  have hg' : decide (b.toNat < a.toNat) = g := by rw [Bool.eq_iff_iff, decide_eq_true_iff]; exact hg.symm
  have he' : decide (a.toNat = b.toNat) = e := by rw [Bool.eq_iff_iff, decide_eq_true_iff]; exact he.symm
  have hl' : decide (a.toNat < b.toNat) = l := by rw [Bool.eq_iff_iff, decide_eq_true_iff]; exact hl.symm
  rw [compareFlags, hg', he', hl']

/-- The equal flag says whether the operands were equal (R122). -/
theorem compareFlags_equal (a b : Byte) : (compareFlags a b).equal = decide (a = b) := by
  simp [compareFlags, Flags.equal, BitVec.toNat_inj]

/-- The ALU's product is the low byte of the exact product (R121). -/
theorem mulByte_toNat (a b : Byte) : (mulByte a b).toNat = a.toNat * b.toNat % 256 := by
  simp [mulByte]

end Sys2Proof.Machine
end

