-- ==== Sys2Proof/Laws/Fetch.lean ====
section
/-! SUPPORT. Everything the common fetch and decode can do (R82), and what placing bytes at `pc` does. -/

namespace Sys2Proof.Machine

/-- The operand window holds the bytes after `pc` that lie in memory, at most two. -/
theorem operandWindow_cases (s : State) :
    (s.pc.toNat = 255 ∧ operandWindow s = []) ∨
    (s.pc.toNat = 254 ∧ operandWindow s = [s.readByte (s.pc + 1)]) ∨
    (s.pc.toNat ≤ 253 ∧ operandWindow s = [s.readByte (s.pc + 1), s.readByte (s.pc + 2)]) := by
  have hlt := s.pc.isLt
  have h1 : s.pc.toNat + 1 ≤ 255 → (s.pc + 1).toNat = s.pc.toNat + 1 := by
    intro h; rw [BitVec.toNat_add]; exact Nat.mod_eq_of_lt (by simp; omega)
  have h2 : s.pc.toNat + 2 ≤ 255 → (s.pc + 2).toNat = s.pc.toNat + 2 := by
    intro h; rw [BitVec.toNat_add]; exact Nat.mod_eq_of_lt (by simp; omega)
  by_cases ha : s.pc.toNat + 1 ≤ 255
  · by_cases hb : s.pc.toNat + 2 ≤ 255
    · refine .inr (.inr ⟨by omega, ?_⟩)
      simp only [operandWindow, State.readByte, h1 ha, h2 hb]
      simp [State.memRead?, ha, hb]
    · refine .inr (.inl ⟨by omega, ?_⟩)
      simp only [operandWindow, State.readByte, h1 ha]
      simp [State.memRead?, ha, hb]
  · exact .inl ⟨by omega, by simp [operandWindow, State.memRead?]; omega⟩

/-- The common fetch and decode (R82): an unknown opcode, an operand past address 255, or the instruction whose opcode
and operand bytes stand at `pc`. -/
theorem fetch_cases (m : OpcodeMap) (s : State) :
    (decodeOp m s.opcodeByte = none ∧
      fetch m s = .raised .decodeError s.pc.toNat) ∨
    (∃ h, decodeOp m s.opcodeByte = some h ∧ 255 < s.pc.toNat + h.operandCount ∧
      fetch m s = .raised .oobMemoryOperand 256) ∨
    (∃ h i, decodeOp m s.opcodeByte = some h ∧ s.pc.toNat + h.operandCount ≤ 255 ∧
      i.handler = h ∧ i.operandBytes = [s.readByte (s.pc + 1), s.readByte (s.pc + 2)].take h.operandCount ∧
      fetch m s = .instr i) := by
  cases hd : decodeOp m s.opcodeByte with
  | none => exact .inl ⟨rfl, by simp [fetch, decodeFrom, hd]⟩
  | some h =>
    have hlt := s.pc.isLt
    have hc := h.operandCount_le_two
    obtain ⟨i, hi, hb, hlen, ht⟩ | ⟨hlen, ht⟩ := takeOperands_cases h (operandWindow s)
    · refine .inr (.inr ⟨h, i, rfl, ?_, hi, ?_, by simp [fetch, decodeFrom, hd, ht]⟩)
      · obtain ⟨hp, hw⟩ | ⟨hp, hw⟩ | ⟨hp, hw⟩ := operandWindow_cases s <;> simp [hw] at hlen <;> omega
      · obtain ⟨hp, hw⟩ | ⟨hp, hw⟩ | ⟨hp, hw⟩ := operandWindow_cases s
        · have : h.operandCount = 0 := by simpa [hw] using hlen
          rw [hb, this]; simp
        · have : h.operandCount = 0 ∨ h.operandCount = 1 := by simp [hw] at hlen; omega
          rcases this with h0 | h0 <;> rw [hb, hw, h0] <;> rfl
        · rw [hb, hw]
    · have hf : fetch m s = .raised .oobMemoryOperand (s.pc.toNat + ((operandWindow s).length + 1)) := by
        simp [fetch, decodeFrom, hd, ht]
      refine .inr (.inl ⟨h, rfl, ?_, ?_⟩)
      · obtain ⟨hp, hw⟩ | ⟨hp, hw⟩ | ⟨hp, hw⟩ := operandWindow_cases s <;> simp [hw] at hlen <;> omega
      · obtain ⟨hp, hw⟩ | ⟨hp, hw⟩ | ⟨hp, hw⟩ := operandWindow_cases s
        · rw [hf, hw, hp]; rfl
        · rw [hf, hw, hp]; rfl
        · simp [hw] at hlen; omega

/-- Placing bytes keeps the canonical form of memory. -/
theorem Memory.wf_writeAll {m : Memory} (a : Nat) (bs : List Byte) (h : m.wf = true) :
    (m.writeAll a bs).wf = true := by
  induction bs generalizing m a with
  | nil => exact h
  | cons b bs ih =>
    unfold Memory.writeAll
    split
    · exact ih _ (Memory.wf_write b h (by omega))
    · exact h

end Sys2Proof.Machine
end

