-- ==== Sys2Proof/Laws/Exec.lean ====
section
/-! SUPPORT. Everything one instruction and one step can do, once: an instruction stops in one of its two checks or runs
its body; a step is a reset, a Halted core answering the host, a fault of the fetch, or one instruction. -/

namespace Sys2Proof.Machine

/-- The register an operand byte in 0..7 names. -/
def regOf (b : Byte) : RegIdx := ⟨b.toNat % 8, Nat.mod_lt _ (by decide)⟩

theorem regOf_eq {b : Byte} (h : b.toNat < 8) : regOf b = ⟨b.toNat, h⟩ := Fin.ext (Nat.mod_eq_of_lt h)

/-- An instruction's own effect, after its checks: the body each meaning hands to the checking operations. -/
def bodyOf (i : Instr) (s : State) : State :=
  match i with
  | .halt => s.halt
  | .loadImmediate reg value => (s.setReg (regOf reg) value).advance .loadImmediate s.opcodeByte
  | .printRegister reg => (s.emit (s.reg (regOf reg))).advance .printRegister s.opcodeByte
  | .multiply regA regB => (s.setReg (regOf regA) (mulByte (s.reg (regOf regA)) (s.reg (regOf regB)))).advance .multiply s.opcodeByte
  | .compare regA regB => (s.setFlags (compareFlags (s.reg (regOf regA)) (s.reg (regOf regB)))).advance .compare s.opcodeByte
  | .jump reg => s.branch (s.reg (regOf reg))
  | .jumpIfEqual reg => if s.flags.equal = true then s.branch (s.reg (regOf reg)) else s.advance .jumpIfEqual s.opcodeByte
  | .jumpIfNotEqual reg => if s.flags.equal = false then s.branch (s.reg (regOf reg)) else s.advance .jumpIfNotEqual s.opcodeByte
  | .push reg => (s.pushByte (s.reg (regOf reg))).advance .push s.opcodeByte
  | .pop reg => (s.popInto (regOf reg)).advance .pop s.opcodeByte

/-- The first register operand above 7, in the order of the checks (R81, R157). -/
def firstBad (i : Instr) : Option Byte := i.regOperands.find? fun b => decide (7 < b.toNat)

theorem firstBad_gt {i : Instr} {b : Byte} (h : firstBad i = some b) : 7 < b.toNat := by
  simpa using List.find?_some h

theorem firstBad_none_iff (i : Instr) : firstBad i = none ↔ i.wellFormed = true := by
  simp [firstBad, Instr.wellFormed, regOperandOk]

/-- One register operand: the checks and the body, in terms of `firstBad`. -/
theorem onReg_firstBad (h : Handler) (reg : Byte) (s : State) (k : RegIdx → State) :
    (255 < s.pc.toNat + h.operandCount ∧ onReg h reg s k = s.raise .oobMemoryOperand 256 s.opcodeByte) ∨
    (s.pc.toNat + h.operandCount ≤ 255 ∧
      ∃ b, [reg].find? (fun b => decide (7 < b.toNat)) = some b ∧ onReg h reg s k = s.raise .oobRegister b.toNat s.opcodeByte) ∨
    (s.pc.toNat + h.operandCount ≤ 255 ∧ [reg].all regOperandOk = true ∧ onReg h reg s k = k (regOf reg)) := by
  obtain ⟨hp, e⟩ | ⟨hp, hr, e⟩ | ⟨hp, r, hr, e⟩ := onReg_cases h reg s k
  · exact .inl ⟨hp, e⟩
  · exact .inr (.inl ⟨hp, reg, by simp [hr], e⟩)
  · have hlt : reg.toNat < 8 := hr ▸ r.isLt
    refine .inr (.inr ⟨hp, by simp [regOperandOk]; omega, ?_⟩)
    rw [e, regOf_eq hlt]; exact congrArg k (Fin.ext hr)

/-- Two register operands: the checks and the body, in terms of `firstBad`. -/
theorem onRegReg_firstBad (h : Handler) (regA regB : Byte) (s : State) (k : RegIdx → RegIdx → State) :
    (255 < s.pc.toNat + h.operandCount ∧ onRegReg h regA regB s k = s.raise .oobMemoryOperand 256 s.opcodeByte) ∨
    (s.pc.toNat + h.operandCount ≤ 255 ∧
      ∃ b, [regA, regB].find? (fun b => decide (7 < b.toNat)) = some b ∧
        onRegReg h regA regB s k = s.raise .oobRegister b.toNat s.opcodeByte) ∨
    (s.pc.toNat + h.operandCount ≤ 255 ∧ [regA, regB].all regOperandOk = true ∧
      onRegReg h regA regB s k = k (regOf regA) (regOf regB)) := by
  obtain ⟨hp, e⟩ | ⟨hp, hr, e⟩ | ⟨hp, hA, hB, e⟩ | ⟨hp, a, b, ha, hb, e⟩ := onRegReg_cases h regA regB s k
  · exact .inl ⟨hp, e⟩
  · exact .inr (.inl ⟨hp, regA, by simp [hr], e⟩)
  · exact .inr (.inl ⟨hp, regB, by simp [hB]; omega, e⟩)
  · have hA : regA.toNat < 8 := ha ▸ a.isLt
    have hB : regB.toNat < 8 := hb ▸ b.isLt
    refine .inr (.inr ⟨hp, by simp [regOperandOk]; omega, ?_⟩)
    rw [e, regOf_eq hA, regOf_eq hB]; exact congrArg₂ k (Fin.ext ha) (Fin.ext hb)

/-- Everything an instruction can do: stop at a missing operand, stop at its first bad register index, or run its
body. -/
theorem exec_cases (i : Instr) (s : State) :
    (255 < s.pc.toNat + i.handler.operandCount ∧
      exec i s = .next (s.raise .oobMemoryOperand 256 s.opcodeByte)) ∨
    (s.pc.toNat + i.handler.operandCount ≤ 255 ∧
      ∃ b, firstBad i = some b ∧ exec i s = .next (s.raise .oobRegister b.toNat s.opcodeByte)) ∨
    (s.pc.toNat + i.handler.operandCount ≤ 255 ∧ i.wellFormed = true ∧ exec i s = .next (bodyOf i s)) := by
  have lift : ∀ (h : Handler) (regs : List Byte) (x y : State),
      ((255 < s.pc.toNat + h.operandCount ∧ x = s.raise .oobMemoryOperand 256 s.opcodeByte) ∨
        (s.pc.toNat + h.operandCount ≤ 255 ∧
          ∃ b, regs.find? (fun b => decide (7 < b.toNat)) = some b ∧ x = s.raise .oobRegister b.toNat s.opcodeByte) ∨
        (s.pc.toNat + h.operandCount ≤ 255 ∧ regs.all regOperandOk = true ∧ x = y)) →
      (255 < s.pc.toNat + h.operandCount ∧
        Host.Outcome.next (φ := Fault) (ρ := Refusal) x = .next (s.raise .oobMemoryOperand 256 s.opcodeByte)) ∨
      (s.pc.toNat + h.operandCount ≤ 255 ∧
        ∃ b, regs.find? (fun b => decide (7 < b.toNat)) = some b ∧
          Host.Outcome.next (φ := Fault) (ρ := Refusal) x = .next (s.raise .oobRegister b.toNat s.opcodeByte)) ∨
      (s.pc.toNat + h.operandCount ≤ 255 ∧ regs.all regOperandOk = true ∧
        Host.Outcome.next (φ := Fault) (ρ := Refusal) x = .next y) := by
    rintro h regs x y (⟨hp, rfl⟩ | ⟨hp, b, hb, rfl⟩ | ⟨hp, hr, rfl⟩)
    · exact .inl ⟨hp, rfl⟩
    · exact .inr (.inl ⟨hp, b, hb, rfl⟩)
    · exact .inr (.inr ⟨hp, hr, rfl⟩)
  cases i with
  | halt => exact .inr (.inr ⟨by have := s.pc.isLt; simp [Instr.handler, Handler.operandCount]; omega, rfl, rfl⟩)
  | loadImmediate reg value => exact lift _ _ _ _ (onReg_firstBad _ reg s _)
  | printRegister reg => exact lift _ _ _ _ (onReg_firstBad _ reg s _)
  | multiply regA regB => exact lift _ _ _ _ (onRegReg_firstBad _ regA regB s _)
  | compare regA regB => exact lift _ _ _ _ (onRegReg_firstBad _ regA regB s _)
  | jump reg => exact lift _ _ _ _ (onReg_firstBad _ reg s _)
  | jumpIfEqual reg => exact lift _ _ _ _ (onReg_firstBad _ reg s _)
  | jumpIfNotEqual reg => exact lift _ _ _ _ (onReg_firstBad _ reg s _)
  | push reg => exact lift _ _ _ _ (onReg_firstBad _ reg s _)
  | pop reg => exact lift _ _ _ _ (onReg_firstBad _ reg s _)

/-- Everything a step can do (R170, R173, R174, R176). -/
theorem stepWith_cases (P : Params) (s : State) :
    (s.nextPins.rst = true ∧ stepWith P s = .next (s.dropPins.resetWith P)) ∨
    (s.nextPins.rst = false ∧ s.fsm = .halted ∧ stepWith P s = .next (s.dropPins.haltedStep s.nextPins)) ∨
    (s.nextPins.rst = false ∧ s.fsm = .running ∧ stepWith P s = runStep P.opcodes s.dropPins) := by
  cases hr : s.nextPins.rst with
  | true => exact .inl ⟨rfl, by simp [stepWith, cycle, hr]⟩
  | false =>
    cases hf : s.fsm with
    | halted => exact .inr (.inl ⟨rfl, rfl, by simp [stepWith, cycle, hr, hf]⟩)
    | running => exact .inr (.inr ⟨rfl, rfl, by simp [stepWith, cycle, hr, hf]⟩)

/-- Fetching does not depend on the host's pins. -/
@[simp] theorem fetch_dropPins (m : OpcodeMap) (s : State) : fetch m s.dropPins = fetch m s := rfl

/-- What the host can change in a Halted core: a byte of memory and the FSM state (R173, R176). -/
theorem haltedStep_eq (p : HostPins) (s : State) :
    s.haltedStep p =
      { s with
        mem := if p.ldWe then s.mem.write p.ldAddr.toNat p.ldWdata else s.mem
        fsm := if p.start && !s.fault.valid then .running else s.fsm } := by
  cases hw : p.ldWe <;> cases hs : p.start <;> cases hv : s.fault.valid <;>
    simp [State.haltedStep, State.hostLoad, State.hostStart, State.writeByte, hw, hs, hv]

end Sys2Proof.Machine
end

