-- ==== Sys2Proof/Laws/PerInstr.lean ====
section
/-! SUPPORT. A statement about every instruction as syntax, with one lemma per constructor. -/

namespace Sys2Proof.Laws.Shape

/-- An instruction's bytes are as many as its handler's length, one to three (R70, R72); its register operands are among
its operand bytes (R81), and the immediate of LOAD_IMMEDIATE is not among those checked (R110). -/
def Statement (i : Instr) : Prop :=
  (encode i).length = i.handler.length ∧ 1 ≤ (encode i).length ∧ (encode i).length ≤ 3 ∧
    i.regOperands = i.operandBytes.take (if i.handler = .loadImmediate then 1 else i.handler.operandCount)

theorem halt : Statement .halt := ⟨rfl, Nat.le_refl 1, by show 1 ≤ 3; omega, rfl⟩
theorem loadImmediate (reg value : Byte) : Statement (.loadImmediate reg value) :=
  ⟨rfl, by show 1 ≤ 3; omega, Nat.le_refl 3, rfl⟩
theorem printRegister (reg : Byte) : Statement (.printRegister reg) :=
  ⟨rfl, by show 1 ≤ 2; omega, by show 2 ≤ 3; omega, rfl⟩
theorem multiply (regA regB : Byte) : Statement (.multiply regA regB) :=
  ⟨rfl, by show 1 ≤ 3; omega, Nat.le_refl 3, rfl⟩
theorem compare (regA regB : Byte) : Statement (.compare regA regB) :=
  ⟨rfl, by show 1 ≤ 3; omega, Nat.le_refl 3, rfl⟩
theorem jump (reg : Byte) : Statement (.jump reg) :=
  ⟨rfl, by show 1 ≤ 2; omega, by show 2 ≤ 3; omega, rfl⟩
theorem jumpIfEqual (reg : Byte) : Statement (.jumpIfEqual reg) :=
  ⟨rfl, by show 1 ≤ 2; omega, by show 2 ≤ 3; omega, rfl⟩
theorem jumpIfNotEqual (reg : Byte) : Statement (.jumpIfNotEqual reg) :=
  ⟨rfl, by show 1 ≤ 2; omega, by show 2 ≤ 3; omega, rfl⟩
theorem push (reg : Byte) : Statement (.push reg) :=
  ⟨rfl, by show 1 ≤ 2; omega, by show 2 ≤ 3; omega, rfl⟩
theorem pop (reg : Byte) : Statement (.pop reg) :=
  ⟨rfl, by show 1 ≤ 2; omega, by show 2 ≤ 3; omega, rfl⟩

end Sys2Proof.Laws.Shape
end

