-- ==== Sys2Proof/Laws/Run.lean ====
section
/-! SUPPORT. Several steps: the first step of a run, two runs joined, and the host's own run of the machine. -/

namespace Sys2Proof.Machine

@[simp] theorem runFor_zero (P : Params) (s : State) : runFor P 0 s = .next s := rfl

/-- A run of one step more, from the first step. -/
theorem runFor_succ {P : Params} {s t : State} (n : Nat) (h : stepWith P s = .next t) : runFor P (n + 1) s = runFor P n t := by
  simp [runFor, h]

/-- A run joined to a run. -/
theorem runFor_add {P : Params} {s t : State} (m n : Nat) (h : runFor P m s = .next t) : runFor P (m + n) s = runFor P n t := by
  induction m generalizing s with
  | zero => cases h; rw [Nat.zero_add]
  | succ m ih =>
    rw [show m + 1 + n = m + n + 1 by omega]
    cases hs : stepWith P s with
    | next u =>
      rw [runFor_succ _ hs] at h ⊢
      exact ih h
    | fault r => simp [runFor, hs] at h
    | refused r => simp [runFor, hs] at h

/-- The host's run of the machine with parameters `P` is this one. -/
theorem runFor_eq_machineOf (P : Params) (n : Nat) (s : State) : Host.Core.run (machineOf P) n s = runFor P n s := by
  induction n generalizing s with
  | zero => rfl
  | succ n ih =>
    simp only [Host.Core.run, runFor]
    cases hs : stepWith P s with
    | next t => rw [show (machineOf P).step s = .next t from hs]; exact ih t
    | fault r => rw [show (machineOf P).step s = .fault r from hs]; rfl
    | refused r => rw [show (machineOf P).step s = .refused r from hs]; rfl

/-- The host's machine is the one with the default parameters of R11. -/
theorem core_eq_machineOf : Sys2Proof.core = machineOf Config.params := rfl

/-- The host's run of its machine is the run at the default parameters. -/
theorem runFor_eq_core (n : Nat) (s : State) : Host.Core.run Sys2Proof.core n s = runFor Config.params n s :=
  runFor_eq_machineOf Config.params n s

end Sys2Proof.Machine
end

