-- ==== Sys2Proof/Tests/Slice0.lean ====
section
/-! SUPPORT. Tests of the model against the vectors of spec/95_test_vectors.md, smoke tests of the well-formedness check,
and for every statement with hypotheses a state and operands that meet them. Expected values are the spec's. -/

namespace Sys2Proof.Tests

open Sys2Proof.Machine Sys2Proof.Claim

/-- The reset state, Running, with some bytes from address `a` on and `pc` there. -/
def startAt (a : Byte) (bytes : List Byte) : State :=
  { State.reset with mem := Memory.writeAll [] a.toNat bytes, pc := a, fsm := .running }

/-- Set one register. -/
def withR (r : RegIdx) (v : Byte) (s : State) : State := { s with regs := s.regs.set r v }

/-- Set the flags, written as the vectors write them: G, E, L. -/
def withFL (g e l : Bool) (s : State) : State := { s with flags := { g := g, e := e, l := l } }

/-- Set what the host drives. -/
def withHost (ps : List HostPins) (s : State) : State := { s with hostIn := ps }

/-- The core Halted. -/
def haltedAt (s : State) : State := { s with fsm := .halted }

/-- The state an outcome gives, or the given one where it gives none. -/
def resultOr (s : State) : Host.Outcome State Fault Refusal → State
  | .next t => t
  | _ => s

/-- The state after one step. -/
def after (s : State) : State := resultOr s (step s)

/-- The state after one instruction. -/
def ran (i : Instr) (s : State) : State := resultOr s (exec i s)

/-- The fault record the vectors write `FAULT{kind, addr, pc, opcode}`. -/
def record (kind : FaultKind) (addr : BitVec 9) (pc opcode : Byte) : FaultRecord :=
  { valid := true, kind := kind, addr := addr, pc := pc, opcode := opcode }

/-- Parameters other than the defaults of R11: HALT and PUSH exchange their opcodes, SP starts at 0xF4 (an alternative
that D3 names), and reset keeps memory. -/
def other : Params where
  opcodes := { Config.opcodeMap with halt := 0x45, push := 0x01 }
  spReset := 0xF4
  clearsRam := false
  cycles := Config.cycles

/-- The state after one step under `other`. -/
def afterOther (s : State) : State := resultOr s (stepWith other s)

/-! ### Well-formedness: each check refuses an ill-formed term -/

/-- R22: a first register operand of 8 is out of range, for each shape that has one. -/
theorem test_wellFormed_refuses_first_register :
    ([.printRegister 8, .loadImmediate 8 0, .multiply 8 0, .compare 8 0, .jump 8, .jumpIfEqual 8,
      .jumpIfNotEqual 9, .push 255, .pop 8] : List Instr).all (fun i => i.wellFormed == false) = true := by decide

/-- R81: a second register operand above 7 is out of range for the two instructions that have one. -/
theorem test_wellFormed_refuses_second_register :
    ([.multiply 0 9, .compare 7 8] : List Instr).all (fun i => i.wellFormed == false) = true := by decide

/-- R110: the immediate is never checked; R21: index 7 is a register; HALT has no operand. -/
theorem test_wellFormed_accepts :
    ([.loadImmediate 0 200, .loadImmediate 7 255, .multiply 7 7, .halt, .pop 7] : List Instr).all
      (fun i => i.wellFormed) = true := by decide

/-! ### Decoding: words written out from the table of R76 and the formats of R71 -/

/-- Format N. -/
theorem test_decode_halt : decode [0b00000001, 0x55] = .ok (.halt, [0x55]) := by decide

/-- Format RI: opcode, register, immediate. -/
theorem test_decode_loadImmediate : decode [0b10000010, 3, 0xC8] = .ok (.loadImmediate 3 0xC8, []) := by decide

theorem test_decode_printRegister : decode [0b01000111, 4] = .ok (.printRegister 4, []) := by decide

/-- Format RR: the first operand byte is `regA`. -/
theorem test_decode_multiply : decode [0b10100010, 5, 6] = .ok (.multiply 5 6, []) := by decide

theorem test_decode_compare : decode [0b10100111, 3, 4] = .ok (.compare 3 4, []) := by decide

theorem test_decode_jump : decode [0b01010100, 5] = .ok (.jump 5, []) := by decide

theorem test_decode_jumpIfEqual : decode [0b01010101, 2] = .ok (.jumpIfEqual 2, []) := by decide

theorem test_decode_jumpIfNotEqual : decode [0b01010110, 2] = .ok (.jumpIfNotEqual 2, []) := by decide

theorem test_decode_push : decode [0b01000101, 7] = .ok (.push 7, []) := by decide

/-- R74: a register operand is a whole byte, not masked. -/
theorem test_decode_pop : decode [0b01000110, 0xF9] = .ok (.pop 0xF9, []) := by decide

/-- V80 to V83 (R78): bytes that are no opcode. -/
theorem test_decode_refuses_unknown :
    decode [0x00, 0] = .error (.unknownOpcode 0x00) ∧ decode [0xA0, 0, 1] = .error (.unknownOpcode 0xA0) ∧
    decode [0x11] = .error (.unknownOpcode 0x11) ∧ decode [0x50, 0] = .error (.unknownOpcode 0x50) := by decide

/-- A missing operand is refused by name. -/
theorem test_decode_refuses_short :
    decode [] = .error .noBytes ∧ decode [0x82] = .error (.missingOperand .loadImmediate 1) ∧
    decode [0x82, 9] = .error (.missingOperand .loadImmediate 2) := by decide

/-- The numbering of the opcode table: the first byte is the least significant. -/
theorem test_table_word :
    decodeTableWord 8 0x01 = some .halt ∧ decodeTableWord 24 0xC80382 = some (.loadImmediate 3 0xC8) ∧
    decodeTableWord 8 0x47 = some (.printRegister 0) ∧ decodeTableWord 8 0x00 = none := by decide

/-! ### One step of each instruction -/

/-- V1. -/
theorem test_halt_keeps_registers_and_flags :
    let t := after (withFL false true false (withR 0 5 (startAt 0 [0x01])))
    t.fsm = .halted ∧ t.pc = 0 ∧ t.regs[0] = 5 ∧ t.flags.e = true ∧ t.fault.valid = false := by decide

/-- V2. -/
theorem test_halt_at_the_top :
    let t := after (startAt 0xFF [0x01])
    t.fsm = .halted ∧ t.pc = 0 ∧ t.fault.valid = false := by decide

/-- V3. -/
theorem test_print_emits :
    let t := after (withR 4 0x9C (startAt 0 [0x47, 0x04]))
    t.out = [156] ∧ t.pc = 2 ∧ t.fsm = .running := by decide

/-- V4: the output stands although the advance faults. -/
theorem test_print_at_the_top :
    let t := after (withR 2 0x11 (startAt 0xFE [0x47, 0x02]))
    t.out = [17] ∧ t.fault = record .oobMemoryFetch 256 0xFE 0x47 ∧ t.fsm = .halted ∧ t.pc = 0xFE := by decide

/-- V21. -/
theorem test_loadImmediate_sets_sp :
    let t := after (startAt 0 [0x82, 0x07, 0xF4])
    t.regs[7] = 0xF4 ∧ t.sp = 0xF4 ∧ t.pc = 3 := by decide

/-- V26: the operand fault wins over the bad register. -/
theorem test_loadImmediate_past_the_top :
    (after (startAt 0xFE [0x82, 0x09])).fault = record .oobMemoryOperand 256 0xFE 0x82 := by decide

/-- V34 with the flags of V30: unsigned, and no flag changes. -/
theorem test_multiply_is_unsigned :
    let t := after (withFL true false false (withR 0 0xFF (withR 1 2 (startAt 0 [0xA2, 0x00, 0x01]))))
    t.regs[0] = 0xFE ∧ t.regs[1] = 2 ∧ t.flags.g = true := by decide

/-- V37 (R120): a source that is also the destination. -/
theorem test_multiply_squares :
    (after (withR 3 15 (startAt 0 [0xA2, 0x03, 0x03]))).regs[3] = 0xE1 := by decide

/-- V42: the old flag is cleared. -/
theorem test_compare_clears_the_old_flag :
    (after (withFL true false false (withR 0 3 (withR 1 5 (startAt 0 [0xA7, 0x00, 0x01]))))).flags =
      { g := false, e := false, l := true } := by decide

/-- V45: unsigned, 255 > 0. -/
theorem test_compare_is_unsigned :
    (after (withR 0 0xFF (startAt 0 [0xA7, 0x00, 0x01]))).flags = { g := true, e := false, l := false } := by decide

/-- V48. -/
theorem test_jump_assigns :
    (after (withR 5 0x40 (startAt 0 [0x54, 0x05]))).pc = 0x40 := by decide

/-- V50. -/
theorem test_jump_bad_register :
    let t := after (startAt 0 [0x54, 0x08])
    t.fault = record .oobRegister 8 0 0x54 ∧ t.pc = 0 := by decide

/-- V52. -/
theorem test_jumpIfEqual_taken :
    (after (withFL false true false (withR 2 0x30 (startAt 0 [0x55, 0x02])))).pc = 0x30 := by decide

/-- V58: the operand of a branch not taken is checked too. -/
theorem test_jumpIfEqual_checks_unused_operand :
    (after (withFL true false false (startAt 0 [0x55, 0x09]))).fault = record .oobRegister 9 0 0x55 := by decide

/-- V59. -/
theorem test_jumpIfNotEqual_not_taken_at_the_top :
    (after (withFL false true false (startAt 0xFE [0x56, 0x01]))).fault =
      record .oobMemoryFetch 256 0xFE 0x56 := by decide

/-- V60: a taken branch does not advance. -/
theorem test_jumpIfNotEqual_taken_at_the_top :
    let t := after (withR 1 0x10 (startAt 0xFE [0x56, 0x01]))
    t.pc = 0x10 ∧ t.fault.valid = false := by decide

/-- V65: the old SP is stored. -/
theorem test_push_sp :
    let t := after (withR 7 5 (startAt 0 [0x45, 0x07]))
    t.readByte 4 = 0x05 ∧ t.sp = 4 := by decide

/-- V66: the store over the instruction's own operand byte, then the fault of the advance. -/
theorem test_push_at_the_top :
    let t := after (withR 0 0xAB (startAt 0xFE [0x45, 0x00]))
    t.sp = 0xFF ∧ t.readByte 0xFF = 0xAB ∧ t.fault = record .oobMemoryFetch 256 0xFE 0x45 := by decide

/-- V71: underflow is not detected. -/
theorem test_pop_underflow :
    let t := after (startAt 0 [0x46, 0x01])
    t.regs[1] = 0x46 ∧ t.sp = 0x01 := by decide

/-- V72: the loaded byte wins over the incremented SP. -/
theorem test_pop_sp :
    let s := startAt 0 [0x46, 0x07]
    (after (withR 7 0xFE { s with mem := s.mem.write 0xFE 0x10 })).sp = 0x10 := by decide

/-- V80: the first step over all-zero memory. -/
theorem test_zero_is_no_opcode :
    (after (startAt 0 [])).fault = record .decodeError 0 0 0x00 := by decide

/-- V38 (R157): the first bad register is reported. -/
theorem test_first_bad_register :
    (after (startAt 0 [0xA2, 0x08, 0x09])).fault = record .oobRegister 8 0 0xA2 := by decide

/-! ### The host -/

/-- R173, R155: a start runs a Halted core without fault, and does nothing after a fault (V8). -/
theorem test_start :
    (after (withHost [.run] State.reset)).fsm = .running ∧
    (after (withHost [.run] (stopped State.reset .oobRegister 9 0x82))).fsm = .halted := by decide

/-- R11: under another `OPCODE_MAP` the same bytes are other instructions, and a fault records the byte fetched. -/
theorem test_other_opcodes :
    (afterOther (startAt 9 [0x45, 0x03])).pc = 0 ∧ (afterOther (withR 3 7 (startAt 9 [0x01, 0x03]))).readByte 0xFF = 7 ∧
    (afterOther (startAt 9 [0x01, 0x08])).fault = record .oobRegister 8 9 0x01 := by decide

/-- R11, R171: reset under the other parameters. -/
theorem test_other_reset :
    let t := afterOther (withHost [.reset] (startAt 9 [0x77]))
    t.sp = 0xF4 ∧ t.readByte 9 = 0x77 ∧ t.fsm = .halted := by decide

/-- R176: a host write while Halted stores, and while Running it does not. -/
theorem test_host_load :
    (after (withHost [.load 9 0x77] State.reset)).readByte 9 = 0x77 ∧
    (after (withHost [.load 9 0x77] (startAt 0 [0x01]))).readByte 9 = 0x00 := by decide

/-- V92: reset during an endless run. -/
theorem test_reset_while_running :
    let t := after (withHost [.reset] (withR 3 4 (startAt 0 [0x54, 0x00])))
    t.fsm = .halted ∧ t.pc = 0 ∧ t.mem = [] ∧ t.regs[3] = 0 ∧ t.fault.valid = false := by decide

/-- A placed word is the first instruction after reset. -/
theorem test_withFetchWord :
    (after (State.reset.withFetchWord 24 0xC80382)).regs[3] = 0xC8 ∧
    (after (State.reset.withFetchWord 8 0x01)).fsm = .halted := by decide

/-- R31, R34: the status layout `FL[0] = E`, `FL[1] = G`, `FL[2] = L`. -/
theorem test_status_layout :
    ((withFL false true false State.reset).ports 0 .idle).stFlags = 0b001 ∧
    ((withFL true false false State.reset).ports 0 .idle).stFlags = 0b010 ∧
    ((withFL false false true State.reset).ports 0 .idle).stFlags = 0b100 := by decide

/-! ### Witnesses: for every statement with hypotheses, a state and operands that meet them, one for each clause -/

/-- Injective maps: the default one and another. -/
theorem witness_injective : Config.opcodeMap.Injective ∧ other.opcodes.Injective := by
  constructor <;> (intro h h'; cases h <;> cases h' <;> decide)

/-- DecodedBytesAreTheEncoding. -/
theorem witness_decodedBytes : decodeWith Config.opcodeMap [0x45, 7, 9] = .ok (.push 7, [9]) := by decide

/-- UnknownOpcodeRaisesDecodeError. -/
theorem witness_unknownOpcode :
    Executes (startAt 255 [0x00]) ∧ ∀ h : Handler, other.opcodes.byteOf h ≠ (startAt 255 [0x00]).readByte 255 := by
  refine ⟨⟨rfl, rfl⟩, fun h => ?_⟩; cases h <;> decide

/-- PrintRegisterEmitsTheRegister: each clause at its boundary, and what the spec gives there. -/
theorem witness_printRegister :
    ((7 : Byte).toNat < 8 ∧ (startAt 253 []).pc.toNat ≤ 253 ∧
      (ran (.printRegister 7) (withR 7 9 (startAt 253 []))).out = [9]) ∧
    ((startAt 254 []).pc.toNat = 254 ∧ (ran (.printRegister 7) (startAt 254 [])).fault.kind = .oobMemoryFetch) ∧
    ((startAt 255 []).pc.toNat = 255 ∧ (ran (.printRegister 8) (startAt 255 [])).fault.kind = .oobMemoryOperand) ∧
    (7 < (8 : Byte).toNat ∧ (ran (.printRegister 8) (startAt 254 [])).fault.kind = .oobRegister) := by decide

/-- LoadImmediateWritesTheConstant. -/
theorem witness_loadImmediate :
    ((7 : Byte).toNat < 8 ∧ (startAt 252 []).pc.toNat ≤ 252 ∧
      (ran (.loadImmediate 7 255) (startAt 252 [])).pc = 255) ∧
    ((startAt 253 []).pc.toNat = 253 ∧ (ran (.loadImmediate 7 255) (startAt 253 [])).fault.kind = .oobMemoryFetch) ∧
    (254 ≤ (startAt 254 []).pc.toNat ∧ (ran (.loadImmediate 8 0) (startAt 254 [])).fault.kind = .oobMemoryOperand) ∧
    (7 < (8 : Byte).toNat ∧ (ran (.loadImmediate 8 0) (startAt 253 [])).fault.kind = .oobRegister) := by decide

/-- MultiplyWritesTheLowByteOfTheProduct: `0x10 * 0x10` gives 0x00 (R120). -/
theorem witness_multiply :
    ((0x00 : Byte).toNat = (0x10 : Byte).toNat * (0x10 : Byte).toNat % 256 ∧
      (ran (.multiply 7 7) (withR 7 0x10 (startAt 252 []))).regs[7] = 0 ∧
      (ran (.multiply 7 7) (withR 7 0x10 (startAt 253 []))).fault.kind = .oobMemoryFetch) ∧
    (ran (.multiply 8 9) (startAt 254 [])).fault.kind = .oobMemoryOperand ∧
    (ran (.multiply 255 9) (startAt 253 [0xA2])).fault = record .oobRegister 255 253 0xA2 ∧
    (ran (.multiply 7 8) (startAt 253 [0xA2])).fault = record .oobRegister 8 253 0xA2 := by decide

/-- CompareSetsTheFlagOfTheUnsignedOrder: each order of the operands, and each exception. -/
theorem witness_compare :
    ((ran (.compare 0 1) (withR 0 255 (startAt 252 []))).flags = { g := true, e := false, l := false } ∧
      (ran (.compare 1 0) (withR 0 255 (startAt 252 []))).flags = { g := false, e := false, l := true } ∧
      (ran (.compare 7 7) (withR 7 128 (startAt 253 []))).flags = { g := false, e := true, l := false } ∧
      (ran (.compare 7 7) (startAt 253 [])).fault.kind = .oobMemoryFetch) ∧
    (ran (.compare 8 9) (startAt 254 [])).fault.kind = .oobMemoryOperand ∧
    (ran (.compare 8 9) (startAt 253 [0xA7])).fault = record .oobRegister 8 253 0xA7 ∧
    (ran (.compare 7 9) (startAt 253 [0xA7])).fault = record .oobRegister 9 253 0xA7 := by decide

/-- JumpAssignsTheProgramCounter: its five clauses; the fifth jumps at 254 to a zero byte at 16. -/
theorem witness_jump :
    (ran (.jump 7) (withR 7 0xFF (startAt 254 []))).pc = 0xFF ∧
    (ran (.jump 8) (startAt 255 [])).fault.kind = .oobMemoryOperand ∧
    (ran (.jump 8) (startAt 254 [])).fault.kind = .oobRegister ∧
    (withR 7 254 (startAt 254 [])).regs[7] = (withR 7 254 (startAt 254 [])).pc := by decide

theorem witness_jump_to_no_opcode :
    let s := withR 1 16 (startAt 254 [0x54, 1])
    Executes s ∧ At Config.opcodeMap (.jump 1) s ∧ s.dropPins.nextPins.rst = false ∧
      ∀ g : Handler, Config.opcodeMap.byteOf g ≠ s.readByte s.regs[(1 : Byte).toNat] := by
  refine ⟨⟨rfl, rfl⟩, ⟨by decide, by decide⟩, rfl, fun g => ?_⟩
  cases g <;> decide

/-- JumpIfEqualBranchesOnTheEqualFlag. -/
theorem witness_jumpIfEqual :
    (ran (.jumpIfEqual 7) (withFL false true false (withR 7 9 (startAt 254 [])))).pc = 9 ∧
    (ran (.jumpIfEqual 7) (withR 7 9 (startAt 253 []))).pc = 255 ∧
    (ran (.jumpIfEqual 7) (startAt 254 [])).fault.kind = .oobMemoryFetch ∧
    (ran (.jumpIfEqual 8) (startAt 255 [])).fault.kind = .oobMemoryOperand ∧
    (ran (.jumpIfEqual 8) (startAt 254 [])).fault.kind = .oobRegister := by decide

/-- JumpIfNotEqualBranchesOnTheClearFlag; the last clause loops at 254. -/
theorem witness_jumpIfNotEqual :
    (ran (.jumpIfNotEqual 7) (withR 7 9 (startAt 254 []))).pc = 9 ∧
    (ran (.jumpIfNotEqual 7) (withFL false true false (startAt 253 []))).pc = 255 ∧
    (ran (.jumpIfNotEqual 7) (withFL false true false (startAt 254 []))).fault.kind = .oobMemoryFetch ∧
    (ran (.jumpIfNotEqual 8) (startAt 255 [])).fault.kind = .oobMemoryOperand ∧
    (ran (.jumpIfNotEqual 8) (startAt 254 [])).fault.kind = .oobRegister ∧
    (ran (.jumpIfNotEqual 7) (withR 7 254 (startAt 254 []))).pc = 254 := by decide

/-- PushDecrementsAndStores, with SP wrapping from 0x00. -/
theorem witness_push :
    (ran (.push 7) (startAt 253 [])).sp = 0xFF ∧
    (ran (.push 7) (startAt 254 [])).fault.kind = .oobMemoryFetch ∧
    (ran (.push 8) (startAt 255 [])).fault.kind = .oobMemoryOperand ∧
    (ran (.push 8) (startAt 254 [])).fault.kind = .oobRegister := by decide

/-- PopLoadsAndIncrements, with SP wrapping from 0xFF. -/
theorem witness_pop :
    (ran (.pop 0) (withR 7 0xFF (startAt 253 []))).sp = 0x00 ∧
    (ran (.pop 7) (startAt 254 [])).fault.kind = .oobMemoryFetch ∧
    (ran (.pop 8) (startAt 255 [])).fault.kind = .oobMemoryOperand ∧
    (ran (.pop 8) (startAt 254 [])).fault.kind = .oobRegister := by decide

/-- StackPointerAsStackOperand, StackPointerIsRegisterSeven and RegisterWritesAreModulo256: the boundary of each range
of `pc`, and SP at each end of its range. -/
theorem witness_stack_pointer :
    (startAt 253 []).pc.toNat ≤ 253 ∧ (startAt 250 []).pc.toNat ≤ 250 ∧
    (startAt 252 []).pc.toNat ≤ 252 ∧ (6 : Byte).toNat ≠ 7 ∧ (6 : RegIdx).val = (6 : Byte).toNat ∧
    (7 : RegIdx).val = (7 : Byte).toNat ∧
    (startAt 252 []).sp = 0x00 ∧ (withR 7 0xFF (startAt 252 [])).sp = 0xFF := by decide

/-- FrameOfRegisterWriters and FrameOfReaders: next states with and without a fault. -/
theorem witness_frame_register_writers :
    (∃ t, exec (.loadImmediate 7 3) (startAt 252 []) = .next t) ∧
    (∃ t, exec (.multiply 7 8) (startAt 255 []) = .next t) ∧
    (Instr.loadImmediate 7 3).wellFormed = true ∧ (startAt 252 []).pc.toNat ≤ 252 :=
  ⟨⟨_, rfl⟩, ⟨_, rfl⟩, by decide, by decide⟩

theorem witness_frame_readers :
    (Instr.compare 7 0).handler ∈ [Handler.printRegister, .compare, .jump, .jumpIfEqual, .jumpIfNotEqual] ∧
    (Instr.jump 7).handler ≠ .compare ∧ (Instr.jump 7).handler ≠ .printRegister ∧
    (∃ t, exec (.compare 7 0) (startAt 252 []) = .next t) ∧ (∃ t, exec (.jump 8) (startAt 255 []) = .next t) :=
  ⟨by decide, by decide, by decide, ⟨_, rfl⟩, ⟨_, rfl⟩⟩

/-- FrameOfPush, FrameOfPop and FrameOfHalt. -/
theorem witness_frame_stack :
    (∃ t, exec (.push 7) (startAt 253 []) = .next t) ∧ (∃ t, exec (.push 8) (startAt 254 []) = .next t) ∧
    (∃ t, exec (.pop 0) (startAt 253 []) = .next t) ∧ (∃ t, exec (.pop 8) (startAt 255 []) = .next t) ∧
    (∃ t, exec .halt (startAt 255 []) = .next t) :=
  ⟨⟨_, rfl⟩, ⟨_, rfl⟩, ⟨_, rfl⟩, ⟨_, rfl⟩, ⟨_, rfl⟩⟩

/-- BadRegisterIndexRaisesOutOfBounds: the first and the second operand, and a well-formed instruction. -/
theorem witness_bad_register :
    (startAt 253 []).pc.toNat + (Instr.multiply 8 9).handler.operandCount ≤ 255 ∧
    (Instr.multiply 8 9).regOperands.find? (fun b => decide (7 < b.toNat)) = some 8 ∧
    (Instr.multiply 7 8).regOperands.find? (fun b => decide (7 < b.toNat)) = some 8 ∧
    (Instr.multiply 7 7).wellFormed = true ∧ (startAt 253 []).fault.kind ≠ .oobRegister := by decide

/-- AddressPastMemoryRaisesOutOfBounds: each clause. -/
theorem witness_address_past_memory :
    (Executes (startAt 254 [0x82]) ∧ (startAt 254 [0x82]).readByte 254 = Handler.loadImmediate.opcode ∧
      255 < (startAt 254 [0x82]).pc.toNat + Handler.loadImmediate.operandCount) ∧
    ((startAt 253 []).fault = FaultRecord.clear ∧
      (ran (.loadImmediate 0 0) (startAt 253 [])).fault.kind = .oobMemoryFetch ∧
      (ran (.loadImmediate 0 0) (startAt 254 [])).fault.kind = .oobMemoryOperand) :=
  ⟨⟨⟨rfl, rfl⟩, by decide, by decide⟩, by decide, by decide, by decide⟩

/-- SequentialAdvanceNeverWraps: an advance to 255 and one to 256; a conditional jump that is not taken. -/
theorem witness_advance :
    (Instr.pop 7).wellFormed = true ∧ Advances (.pop 7) (startAt 253 []) ∧ Advances (.jumpIfEqual 7) (startAt 254 []) ∧
    (startAt 253 []).pc.toNat + (Instr.pop 7).handler.length ≤ 255 ∧
    255 < (startAt 254 []).pc.toNat + (Instr.pop 7).handler.length ∧
    (startAt 254 []).pc.toNat + (Instr.pop 7).handler.operandCount ≤ 255 :=
  ⟨by decide, trivial, rfl, by decide, by decide, by decide⟩

/-- FaultEntryRecordsAndStops: a fault of each of the four kinds, from a state without one. -/
theorem witness_fault_entry :
    (∀ s ∈ [startAt 0 [0x00], startAt 0 [0x47, 8], startAt 255 [0x47], startAt 254 [0x47, 0]],
      s.fsm = .running ∧ s.nextPins.rst = false ∧ s.fault.valid = false ∧ (after s).fault.valid = true) ∧
    [startAt 0 [0x00], startAt 0 [0x47, 8], startAt 255 [0x47], startAt 254 [0x47, 0]].map (fun s => (after s).fault.kind) =
      [.decodeError, .oobRegister, .oobMemoryOperand, .oobMemoryFetch] := by decide

/-- FaultPriorityOrder: the premises of each clause. -/
theorem witness_fault_priority :
    Executes (startAt 254 [0x82, 9]) ∧ (startAt 254 [0x82, 9]).fault = FaultRecord.clear ∧
    (∃ t, step (startAt 254 [0x82, 9]) = .next t) ∧
    Handler.loadImmediate.opcode = (startAt 254 [0x82, 9]).readByte 254 ∧
    At Config.opcodeMap (.multiply 8 9) (startAt 253 [0xA2, 8, 9]) ∧ At Config.opcodeMap (.push 7) (startAt 254 [0x45, 7]) ∧
    Advances (.push 7) (startAt 254 [0x45, 7]) ∧
    (startAt 254 [0x45, 7]).pc.toNat + (Instr.push 7).handler.length = 256 ∧
    At Config.opcodeMap .halt (startAt 255 [0x01]) ∧ ¬ Advances .halt (startAt 255 [0x01]) :=
  ⟨⟨rfl, rfl⟩, by decide, ⟨_, rfl⟩, by decide, ⟨by decide, by decide⟩, ⟨by decide, by decide⟩, trivial, by decide,
    ⟨by decide, by decide⟩, id⟩

/-- FaultIsStickyUntilReset: a start and a store after a fault; then a reset and a start. -/
theorem witness_sticky :
    let s := withHost [.run, .load 3 4] (stopped (startAt 5 []) .oobRegister 9 0x82)
    let r := withHost [.reset, .run] s
    s.fault.valid = true ∧ s.fsm = .halted ∧ (∀ p ∈ s.hostIn.take 2, p.rst = false) ∧
    (∃ t, runFor Config.params 2 s = .next t) ∧ r.hostIn = .reset :: .run :: [] ∧ HostPins.reset.rst = true ∧
    HostPins.run.rst = false ∧ HostPins.run.start = true :=
  ⟨by decide, by decide, by decide, ⟨_, rfl⟩, rfl, rfl, rfl, rfl⟩

/-- StepRunsTheDecodedInstruction: the last place a three-byte instruction fits, and an instruction that decodes. -/
theorem witness_step :
    let s := startAt 253 [0x82, 3, 0xC8]
    Executes s ∧ decode (s.readByte s.pc :: operandWindow s) = .ok (.loadImmediate 3 0xC8, []) ∧
      At Config.opcodeMap (.loadImmediate 3 0xC8) s :=
  ⟨⟨rfl, rfl⟩, by decide, by decide, by decide⟩

/-- FsmTransitions: a start from Halted, a Halted step, a HALT, a fault and a reset from Running. -/
theorem witness_fsm :
    (after (withHost [.run] State.reset)).fsm = .running ∧ State.reset.nextPins.rst = false ∧
    State.reset.nextPins.ldWe = false ∧
    (after (startAt 0 [0x01])).fsm = .halted ∧ (after (startAt 0 [0x00])).fsm = .halted ∧
    (after (withHost [.reset] (startAt 0 [0x01]))).fsm = .halted ∧ (startAt 0 [0x01]).fault.valid = false := by decide

/-- StartEntersRunningOnlyFromHaltedWithoutFault: each of its three cases. -/
theorem witness_start :
    let h := withHost [.run] State.reset
    let f := stopped h .decodeError 0 0
    let r := withHost [.run] (startAt 0 [0x01])
    (Driven h .run [] ∧ Driven f .run [] ∧ Driven r .run []) ∧ HostPins.run.rst = false ∧ HostPins.run.start = true ∧
    (h.fsm = .halted ∧ h.fault.valid = false) ∧ (f.fsm = .halted ∧ f.fault.valid = true) ∧ r.fsm = .running :=
  ⟨⟨rfl, rfl, rfl⟩, rfl, rfl, ⟨rfl, rfl⟩, ⟨rfl, rfl⟩, rfl⟩

/-- HostWritesMemoryOnlyWhileHalted: a write while Halted, one while Running, and an image. -/
theorem witness_host_write :
    let h := withHost [.load 255 9] State.reset
    let r := withHost [.load 255 9] (startAt 0 [0x01])
    let i := withHost (loadPins 0 [0x47, 0x00, 0x01] ++ [.run]) State.reset
    Driven h (.load 255 9) [] ∧ Driven r (.load 255 9) [] ∧ (HostPins.load 255 9).rst = false ∧
    (HostPins.load 255 9).ldWe = true ∧ h.fsm = .halted ∧ r.fsm = .running ∧ i.fsm = .halted ∧
    i.hostIn = loadPins 0 [0x47, 0x00, 0x01] ++ [.run] ∧ [0x47, 0x00, 0x01].length ≤ 256 :=
  ⟨rfl, rfl, rfl, rfl, rfl, rfl, rfl, rfl, by decide⟩

/-- BootSequenceRunsTheImage, from a Running state. -/
theorem witness_boot :
    (withHost (bootPins [0x01] ++ []) (startAt 7 [0x54])).hostIn = bootPins [0x01] ++ [] ∧
    (List.replicate 256 (0x01 : Byte)).length ≤ 256 := ⟨rfl, Nat.le_of_eq List.length_replicate⟩

/-- ResetAtAnyTime, and ResetClearsRamParameter with the parameter at either value. -/
theorem witness_reset :
    (withHost [.reset] (startAt 7 [0x54])).nextPins.rst = true ∧
    Config.params.clearsRam = true ∧ other.clearsRam = false :=
  ⟨rfl, rfl, rfl⟩

/-- StatusPortsShowTheState: a Halted state and a register select. -/
theorem witness_ports :
    State.reset.fsm = .halted ∧ (7 : RegIdx).val = ({ HostPins.idle with dbgRsel := 7 } : HostPins).dbgRsel.toNat := by
  decide

/-- PlacedWordIsTheNextInstruction, at the last `pc` it covers. -/
theorem witness_placed :
    (startAt 253 []).pc.toNat ≤ 253 ∧ decodeTableWord 24 0xC80382 = some (.loadImmediate 3 0xC8) := by decide

/-- EveryStepKeepsTheInvariant: a Running state that meets it and takes a step. -/
theorem witness_invariant :
    (withHost [.run] State.reset).Inv Config.opcodeMap ∧ ∃ t, step (withHost [.run] State.reset) = .next t :=
  ⟨⟨by decide, by decide, by decide, by decide, by decide, fun h => absurd h (by decide)⟩, ⟨_, rfl⟩⟩

/-- EveryStepKeepsTheInvariant: a faulted state meets it too. -/
theorem witness_invariant_after_fault : (after (startAt 254 [0x82, 9])).Inv Config.opcodeMap where
  mem_wf := by decide
  flags_ok := by decide
  faulted_halted := by decide
  record_clear := by decide
  fault_pc := by decide
  record_ok := fun _ => ⟨by decide, .loadImmediate, by decide, by decide⟩

/-- OnlyCompareWritesFlags: its three clauses. -/
theorem witness_only_compare :
    (Instr.pop 0).handler ≠ .compare ∧ (Instr.compare 7 7).handler = .compare ∧ (Instr.compare 7 7).wellFormed = true ∧
    (Instr.compare 8 7).wellFormed = false ∧ (startAt 253 []).pc.toNat ≤ 253 ∧ 254 ≤ (startAt 254 []).pc.toNat ∧
    (∃ t, exec (.compare 7 7) (startAt 253 []) = .next t) ∧ (∃ t, exec (.pop 0) (startAt 253 []) = .next t) :=
  ⟨by decide, by decide, by decide, by decide, by decide, by decide, ⟨_, rfl⟩, ⟨_, rfl⟩⟩

/-- OnlyPrintRegisterEmits: a step that emits. -/
theorem witness_only_print :
    (after (startAt 0 [0x47, 0])).out ≠ (startAt 0 [0x47, 0]).out ∧
    (ran (.printRegister 0) (startAt 0 [])).out ≠ (startAt 0 []).out := by decide

/-- OnlyPushWritesMemory: a step that changes address 255. -/
theorem witness_only_push :
    Executes (startAt 0 [0x45, 0]) ∧
    (after (withR 0 1 (startAt 0 [0x45, 0]))).mem.read 255 ≠ (withR 0 1 (startAt 0 [0x45, 0])).mem.read 255 :=
  ⟨⟨rfl, rfl⟩, by decide⟩

/-- GreaterAndLesserAreUnobservable: two states that differ in G and L. -/
theorem witness_same_but_gl :
    SameButGL (withFL true false false (startAt 0 [0x01])) (withFL false false true (startAt 0 [0x01])) := rfl

/-- NormalEndMeansHaltExecuted: a run of one step. -/
theorem witness_run_ends :
    RunEnds Config.params (startAt 0 [0x01]) 1 (after (startAt 0 [0x01])) ∧ (after (startAt 0 [0x01])).fault.valid = false :=
  ⟨⟨rfl, by unfold State.NoResetFor; decide, rfl, rfl, fun k hk u hu => by
    obtain rfl : k = 0 := by omega
    cases hu; rfl⟩, rfl⟩

/-- JumpToItselfHangs: V51. -/
theorem witness_hang :
    let s := startAt 0 [0x54, 0x00]
    (0 : Byte).toNat < 8 ∧ s.fsm = .running ∧ At Config.opcodeMap (.jump 0) s ∧ s.regs[(0 : Byte).toNat] = s.pc ∧
      ∀ p ∈ s.hostIn, p.rst = false :=
  ⟨by decide, rfl, ⟨by decide, by decide⟩, rfl, by decide⟩

/-- LoadThenPrintEmitsTheValue: at the last `pc` it covers. -/
theorem witness_load_print :
    let s := startAt 250 [0x82, 7, 200, 0x47, 7]
    (7 : Byte).toNat < 8 ∧ s.pc.toNat ≤ 250 ∧ s.fsm = .running ∧ (∀ p ∈ s.hostIn.take 2, p.rst = false) ∧
    At Config.opcodeMap (.loadImmediate 7 200) s ∧ At Config.opcodeMap (.printRegister 7) { s with pc := s.pc + 3 } :=
  ⟨by decide, by decide, rfl, by decide, ⟨by decide, by decide⟩, ⟨by decide, by decide⟩⟩

/-- PushThenPopRestores: the state right after the PUSH meets the premises on the state of the POP. -/
theorem witness_push_pop :
    let t := ran (.push 7) (startAt 251 [])
    (startAt 251 []).pc.toNat ≤ 253 ∧ exec (.push 7) (startAt 251 []) = .next t ∧ t.sp = t.sp ∧ t.pc.toNat ≤ 253 ∧
      (0 : Byte).toNat < 8 ∧ (0 : Byte).toNat ≠ 7 :=
  ⟨by decide, rfl, rfl, by decide, by decide, by decide⟩

/-- CompareIsIdempotent: two different states with the same two registers. -/
theorem witness_idempotent :
    let s := withR 0 5 (startAt 252 [])
    let t := withR 3 9 s
    s.pc.toNat ≤ 252 ∧ t.pc.toNat ≤ 252 ∧ t.regs[(0 : Byte).toNat] = s.regs[(0 : Byte).toNat] ∧
      t.regs[(1 : Byte).toNat] = s.regs[(1 : Byte).toNat] := by decide

/-- ConditionalJumpsFollowTheLastCompare: a PUSH and a HALT after the COMPARE, and after reset. -/
theorem witness_last_compare :
    (∀ i ∈ [Instr.push 0, .halt], i.handler ≠ .compare) ∧
    (∃ v, execAll (.compare 0 1 :: [Instr.push 0, .halt]) (startAt 253 []) = some v ∧ v.pc.toNat ≤ 253) ∧
    (∃ v, execAll [Instr.push 0, .halt] State.reset = some v ∧ v.pc.toNat ≤ 253) :=
  ⟨by decide, ⟨_, rfl, by decide⟩, ⟨_, rfl, by decide⟩⟩

/-- PushedByteIsSeenByTheNextFetch: P7's PUSH at address 6, with HALT's opcode and with a byte that is none. -/
theorem witness_pushed_byte :
    let s := withR 7 9 (startAt 6 [0x45, 0])
    (withR 0 1 s).fsm = .running ∧ (∀ p ∈ (withR 0 1 s).hostIn.take 2, p.rst = false) ∧ s.pc.toNat ≤ 253 ∧
    At Config.opcodeMap (.push 0) (withR 0 1 s) ∧ At Config.opcodeMap (.push 0) (withR 0 2 s) ∧ (withR 0 1 s).sp - 1 = s.pc + 2 ∧
    (withR 0 1 s).regs[0] = 0x01 ∧ ∀ g : Handler, Config.opcodeMap.byteOf g ≠ (withR 0 2 s).regs[0] := by
  refine ⟨rfl, by decide, by decide, ⟨by decide, by decide⟩, ⟨by decide, by decide⟩, by decide, by decide, fun g => ?_⟩
  cases g <;> decide

end Sys2Proof.Tests
end

section
/-! The checks of an instruction, one lemma per outcome, and its body as a data effect followed by the advance. -/

namespace Sys2Proof.Machine

open Sys2Proof.Claim

/-! ### The three outcomes of an instruction -/

/-- An operand past address 255 stops the instruction (R82, R152). -/
theorem exec_of_operand_past {i : Instr} {s : State} (hp : 255 < s.pc.toNat + i.handler.operandCount) :
    exec i s = .next (s.raise .oobMemoryOperand 256 s.opcodeByte) := by
  obtain ⟨_, e⟩ | ⟨hle, _⟩ | ⟨hle, _⟩ := exec_cases i s
  · exact e
  · omega
  · omega

/-- The first register index above 7 stops the instruction (R81, R151). -/
theorem exec_of_bad_register {i : Instr} {s : State} {b : Byte} (hp : s.pc.toNat + i.handler.operandCount ≤ 255)
    (hb : firstBad i = some b) : exec i s = .next (s.raise .oobRegister b.toNat s.opcodeByte) := by
  obtain ⟨hlt, _⟩ | ⟨_, b', hb', e⟩ | ⟨_, hw, _⟩ := exec_cases i s
  · omega
  · rw [hb] at hb'; cases hb'; exact e
  · rw [(firstBad_none_iff i).mpr hw] at hb; cases hb

/-- A well-formed instruction whose operands lie in memory runs its body (R82). -/
theorem exec_of_ok {i : Instr} {s : State} (hp : s.pc.toNat + i.handler.operandCount ≤ 255)
    (hw : i.wellFormed = true) : exec i s = .next (bodyOf i s) := by
  obtain ⟨hlt, _⟩ | ⟨_, b, hb, _⟩ | ⟨_, _, e⟩ := exec_cases i s
  · omega
  · rw [(firstBad_none_iff i).mpr hw] at hb; cases hb
  · exact e

/-- An instruction with a bad register index is not HALT, which has no operand (R100). -/
theorem handler_ne_halt_of_firstBad {i : Instr} {b : Byte} (hb : firstBad i = some b) : i.handler ≠ .halt := by
  cases i with
  | halt => cases hb
  | _ => exact Handler.noConfusion

/-! ### The data effect of an instruction, apart from what becomes of `pc` -/

/-- What an instruction does to registers, memory, flags and output, without the advance that ends it. -/
def effectOf (i : Instr) (s : State) : State :=
  match i with
  | .loadImmediate reg value => s.setReg (regOf reg) value
  | .printRegister reg => s.emit (s.reg (regOf reg))
  | .multiply regA regB => s.setReg (regOf regA) (mulByte (s.reg (regOf regA)) (s.reg (regOf regB)))
  | .compare regA regB => s.setFlags (compareFlags (s.reg (regOf regA)) (s.reg (regOf regB)))
  | .push reg => s.pushByte (s.reg (regOf reg))
  | .pop reg => s.popInto (regOf reg)
  | .halt | .jump _ | .jumpIfEqual _ | .jumpIfNotEqual _ => s

@[simp] theorem effectOf_pc (i : Instr) (s : State) : (effectOf i s).pc = s.pc := by cases i <;> rfl
@[simp] theorem effectOf_fsm (i : Instr) (s : State) : (effectOf i s).fsm = s.fsm := by cases i <;> rfl
@[simp] theorem effectOf_fault (i : Instr) (s : State) : (effectOf i s).fault = s.fault := by cases i <;> rfl
@[simp] theorem effectOf_hostIn (i : Instr) (s : State) : (effectOf i s).hostIn = s.hostIn := by cases i <;> rfl

/-- No data effect reads `pc`. -/
theorem effectOf_setPc (i : Instr) (s : State) (v : Byte) :
    effectOf i { s with pc := v } = { effectOf i s with pc := v } := by cases i <;> rfl

/-- Only COMPARE has an effect on the flags (R29). -/
theorem effectOf_flags {i : Instr} (h : i.handler ≠ .compare) (s : State) : (effectOf i s).flags = s.flags := by
  cases i with
  | compare => exact absurd rfl h
  | _ => rfl

/-- A data effect keeps the flags' invariant: they stay, or COMPARE sets exactly one (R29). -/
theorem effectOf_flags_atMostOne (i : Instr) {s : State} (h : s.flags.atMostOne = true) :
    (effectOf i s).flags.atMostOne = true := by
  cases i with
  | compare regA regB => exact (Bool.and_eq_true_iff.mp (compareFlags_exactlyOne _ _)).1
  | _ => exact h

/-- A data effect keeps memory in its canonical form: it stays, or PUSH writes at an 8-bit address (R35, R53). -/
theorem effectOf_mem_wf (i : Instr) {s : State} (h : s.mem.wf = true) : (effectOf i s).mem.wf = true := by
  cases i with
  | push reg => exact Memory.wf_write _ h (BitVec.isLt _)
  | _ => exact h

/-- An instruction that advances has its data effect and then advances (R27). -/
theorem bodyOf_of_advances {i : Instr} {s : State} (h : Advances i s) :
    bodyOf i s = (effectOf i s).advance i.handler s.opcodeByte := by
  cases i with
  | halt => exact h.elim
  | jump reg => exact h.elim
  | jumpIfEqual reg => exact if_neg (by simp [Flags.equal, show s.flags.e = false from h])
  | jumpIfNotEqual reg => exact if_neg (by simp [Flags.equal, show s.flags.e = true from h])
  | _ => rfl

/-- Everything the body of an instruction can do: stop the run, take a branch, or have its data effect and advance
(R27, R28, R100). -/
theorem bodyOf_cases (i : Instr) (s : State) :
    (i.handler = .halt ∧ bodyOf i s = s.halt) ∨
    (i.handler ≠ .halt ∧ i.handler ≠ .compare ∧ ∃ v, bodyOf i s = s.branch v) ∨
    (Advances i s ∧ bodyOf i s = (effectOf i s).advance i.handler s.opcodeByte) := by
  cases i with
  | halt => exact .inl ⟨rfl, rfl⟩
  | jump reg => exact .inr (.inl ⟨Handler.noConfusion, Handler.noConfusion, _, rfl⟩)
  | jumpIfEqual reg =>
    cases he : s.flags.e with
    | true => exact .inr (.inl ⟨Handler.noConfusion, Handler.noConfusion, _, if_pos he⟩)
    | false => exact .inr (.inr ⟨he, bodyOf_of_advances he⟩)
  | jumpIfNotEqual reg =>
    cases he : s.flags.e with
    | false => exact .inr (.inl ⟨Handler.noConfusion, Handler.noConfusion, _, if_pos he⟩)
    | true => exact .inr (.inr ⟨he, bodyOf_of_advances he⟩)
  | _ => exact .inr (.inr ⟨trivial, rfl⟩)

/-- HALT and JUMP never advance (R27). -/
theorem handler_ne_of_advances {i : Instr} {s : State} (h : Advances i s) : i.handler ≠ .halt ∧ i.handler ≠ .jump := by
  cases i with
  | halt => exact h.elim
  | jump reg => exact h.elim
  | _ => exact ⟨Handler.noConfusion, Handler.noConfusion⟩

/-! ### The three outcomes of a step -/

/-- Reset acts at any time (R170). -/
theorem stepWith_of_reset (P : Params) {s : State} (hr : s.nextPins.rst = true) :
    stepWith P s = .next (s.dropPins.resetWith P) := by
  simp [stepWith, cycle, hr]

/-- A Halted core only answers the host (R173, R176). -/
theorem stepWith_of_halted (P : Params) {s : State} (hr : s.nextPins.rst = false) (hh : s.fsm = .halted) :
    stepWith P s = .next (s.dropPins.haltedStep s.nextPins) := by
  simp [stepWith, cycle, hr, hh]

/-- A Running core executes one instruction (R174). -/
theorem stepWith_of_running (P : Params) {s : State} (hr : s.nextPins.rst = false) (hh : s.fsm = .running) :
    stepWith P s = runStep P.opcodes s.dropPins := by
  simp [stepWith, cycle, hr, hh]

end Sys2Proof.Machine
end

section
/-! What one Running step can do, in terms of the fault record it writes. -/

namespace Sys2Proof.Machine

/-- Everything the step of a Running core can do (R82, R174): take a fault whose record is consistent and leave the
rest, or run the body of the instruction whose opcode stands at `pc`. -/
theorem runStep_cases (m : OpcodeMap) (s : State) :
    (∃ k a, (s.raise k a s.opcodeByte).fault.Consistent m ∧
      runStep m s = .next (s.raise k a s.opcodeByte)) ∨
    (∃ i : Instr, decodeOp m s.opcodeByte = some i.handler ∧ s.pc.toNat + i.handler.operandCount ≤ 255 ∧
      runStep m s = .next (bodyOf i s)) := by
  have hpc := s.pc.isLt
  obtain ⟨hd, hf⟩ | ⟨h, hd, hp, hf⟩ | ⟨h, i, hd, hp, rfl, _, hf⟩ := fetch_cases m s
  · refine .inl ⟨.decodeError, s.pc.toNat, ⟨?_, hd⟩, by simp only [runStep, hf]⟩
    simp; omega
  · exact .inl ⟨.oobMemoryOperand, 256, ⟨rfl, h, (decodeOp_sound hd).symm, hp⟩, by simp only [runStep, hf]⟩
  · have hrun : runStep m s = exec i s := by simp only [runStep, hf]
    obtain ⟨hlt, _⟩ | ⟨_, b, hb, he⟩ | ⟨_, _, he⟩ := exec_cases i s
    · omega
    · refine .inl ⟨.oobRegister, b.toNat, ⟨?_, ?_, i.handler, handler_ne_halt_of_firstBad hb, (decodeOp_sound hd).symm⟩,
        hrun.trans he⟩
      · have := firstBad_gt hb; have := b.isLt; simp; omega
      · have := b.isLt; simp; omega
    · exact .inr ⟨i, hd, hp, hrun.trans he⟩

end Sys2Proof.Machine
end

section
/-! The invariant of the reachable states, at reset and along every step (O43, O44). -/

namespace Sys2Proof.Machine

open Sys2Proof.Claim

/-- Without a recorded fault the invariant is about memory and the flags alone. -/
theorem State.Inv.of_clear {s : State} {m : OpcodeMap} (hm : s.mem.wf = true) (hf : s.flags.atMostOne = true)
    (hr : s.fault = FaultRecord.clear) : s.Inv m := by
  have hv : s.fault.valid ≠ true := by simp [hr, FaultRecord.clear]
  exact ⟨hm, hf, fun h => absurd h hv, fun _ => hr, fun h => absurd h hv, fun h => absurd h hv⟩

/-- Taking a fault whose record is consistent gives the invariant (R153). -/
theorem State.Inv.raise {s : State} {m : OpcodeMap} {k : FaultKind} {a : Nat} {op : Byte} (hm : s.mem.wf = true)
    (hf : s.flags.atMostOne = true) (hc : (s.raise k a op).fault.Consistent m) : (s.raise k a op).Inv m :=
  ⟨hm, hf, fun _ => rfl, fun h => (Bool.noConfusion h), fun _ => rfl, fun _ => hc⟩

/-- A Running core that meets the invariant has no recorded fault (R153). -/
theorem State.Inv.clear_of_running {s : State} {m : OpcodeMap} (hi : s.Inv m) (hr : s.fsm = .running) :
    s.fault = FaultRecord.clear := by
  refine hi.record_clear (Bool.eq_false_iff.mpr fun hv => ?_)
  rw [hi.faulted_halted hv] at hr
  cases hr

/-- The invariant does not speak of the host's coming inputs. -/
theorem State.Inv.dropPins {s : State} {m : OpcodeMap} (hi : s.Inv m) : s.dropPins.Inv m :=
  ⟨hi.mem_wf, hi.flags_ok, hi.faulted_halted, hi.record_clear, hi.fault_pc, hi.record_ok⟩

/-- A reset gives the invariant, whether it clears memory or keeps it (R38, R171). -/
theorem State.Inv.resetWith {s : State} (P : Params) (m : OpcodeMap) (hm : s.mem.wf = true) :
    (s.resetWith P).Inv m := by
  refine .of_clear ?_ rfl rfl
  rw [State.resetWith_mem]
  split
  · exact Memory.wf_nil
  · exact hm

/-- What the host can do to a Halted core keeps the invariant (R173, R176). -/
theorem State.Inv.haltedStep {s : State} {m : OpcodeMap} (p : HostPins) (hi : s.Inv m) : (s.haltedStep p).Inv m := by
  rw [haltedStep_eq]
  refine ⟨?_, hi.flags_ok, fun hv => ?_, hi.record_clear, hi.fault_pc, hi.record_ok⟩
  · show Memory.wf (if p.ldWe then _ else _) = true
    split
    · exact Memory.wf_write _ hi.mem_wf (BitVec.isLt _)
    · exact hi.mem_wf
  · have hv : s.fault.valid = true := hv
    simp [hv, hi.faulted_halted hv]

/-- An instruction that advances keeps the invariant: an advance to 256 writes a consistent record, in which the opcode
is the one at `pc` before the instruction's effects (R27, R60). -/
theorem State.Inv.advance_effectOf {s : State} {m : OpcodeMap} {i : Instr} (hi : s.Inv m)
    (hc : s.fault = FaultRecord.clear) (hd : decodeOp m s.opcodeByte = some i.handler)
    (hp : s.pc.toNat + i.handler.operandCount ≤ 255) (ha : Advances i s) :
    ((effectOf i s).advance i.handler s.opcodeByte).Inv m := by
  have hm := effectOf_mem_wf i hi.mem_wf
  have hf := effectOf_flags_atMostOne i hi.flags_ok
  obtain ⟨_, he⟩ | ⟨hlt, he⟩ := (effectOf i s).advance_cases i.handler s.opcodeByte
  · rw [he]
    exact .of_clear hm hf ((effectOf_fault i s).trans hc)
  · obtain ⟨hhalt, hjump⟩ := handler_ne_of_advances ha
    have htop : s.pc.toNat + i.handler.length = 256 := by
      rw [effectOf_pc] at hlt; unfold Handler.length at hlt ⊢; omega
    rw [he, effectOf_pc, htop]
    refine .raise hm hf ⟨rfl, i.handler, hhalt, hjump, (decodeOp_sound hd).symm, ?_⟩
    rw [State.raise_fault, effectOf_pc]; exact htop

/-- The step of a Running core keeps the invariant. -/
theorem State.Inv.runStep {s t : State} {m : OpcodeMap} (hi : s.Inv m) (hr : s.fsm = .running)
    (h : runStep m s = .next t) : t.Inv m := by
  have hc := hi.clear_of_running hr
  obtain ⟨k, a, hk, he⟩ | ⟨i, hd, hp, he⟩ := runStep_cases m s <;> rw [he] at h <;> cases h
  · exact .raise hi.mem_wf hi.flags_ok hk
  · obtain ⟨_, hb⟩ | ⟨_, _, v, hb⟩ | ⟨ha, hb⟩ := bodyOf_cases i s <;> rw [hb]
    · exact .of_clear hi.mem_wf hi.flags_ok hc
    · exact .of_clear hi.mem_wf hi.flags_ok hc
    · exact hi.advance_effectOf hc hd hp ha

/-- The step under any parameters keeps the invariant: a reset, the host at a Halted core, or a Running step. -/
theorem State.Inv.stepWith {P : Params} {s t : State} (hi : s.Inv P.opcodes) (h : stepWith P s = .next t) :
    t.Inv P.opcodes := by
  obtain ⟨_, he⟩ | ⟨_, _, he⟩ | ⟨_, hr, he⟩ := stepWith_cases P s <;> rw [he] at h
  · cases h; exact .resetWith P _ hi.mem_wf
  · cases h; exact hi.dropPins.haltedStep _
  · exact hi.dropPins.runStep hr h

/-- Writes at addresses in bounds keep the canonical form. -/
theorem Memory.wf_foldl_write (f : Nat → Byte) (l : List Nat) {m : Memory} (hm : m.wf = true) (hl : ∀ a ∈ l, a < 256) :
    (l.foldl (fun m a => m.write a (f a)) m).wf = true := by
  induction l generalizing m with
  | nil => exact hm
  | cons a l ih =>
    exact ih (Memory.wf_write (f a) hm (hl a List.mem_cons_self)) fun b hb => hl b (List.mem_cons_of_mem a hb)

/-- Memory after power-up is in its canonical form, whatever the draws are (R171). -/
theorem Memory.wf_powerUp : Memory.powerUp.wf = true := by
  unfold Memory.powerUp
  exact Memory.wf_foldl_write Config.powerUpByte _ Memory.wf_nil fun _ ha => List.mem_range.mp ha

/-- Settles O44: `State.Inv.stepWith`, at any parameters and at the defaults. -/
theorem everyStepKeepsTheInvariant : Obligations.EveryStepKeepsTheInvariant :=
  ⟨fun _ _ hi h => hi.stepWith (P := Config.params) h, fun _ _ _ hi h => hi.stepWith h⟩

/-- Settles O43: a reset gives the invariant, and power-up ends in one. -/
theorem resetSatisfiesTheInvariant : Obligations.ResetSatisfiesTheInvariant := by
  refine ⟨fun m => .of_clear Memory.wf_nil rfl rfl, fun P => ?_⟩
  unfold State.powerUp
  exact .resetWith P P.opcodes (by rw [Memory.wf_powerUp])

end Sys2Proof.Machine
end

section
/-! A simulation between two states that differ in the flags G and L alone (O48). -/

namespace Sys2Proof.Machine

open Sys2Proof.Claim

/-- Two states agree but for G and L exactly when the second is the first with other flags of the same E. -/
theorem sameButGL_iff {s s' : State} : SameButGL s s' ↔ ∃ f : Flags, f.e = s.flags.e ∧ s' = s.setFlags f := by
  constructor
  · exact fun h => ⟨{ g := s'.flags.g, e := s.flags.e, l := s'.flags.l }, rfl, h⟩
  · rintro ⟨⟨g, e, l⟩, rfl, rfl⟩
    rfl

theorem sameButGL_refl (s : State) : SameButGL s s := rfl

/-- Other flags of the same E make no other difference. -/
theorem sameButGL_setFlags {s : State} {f : Flags} (h : f.e = s.flags.e) : SameButGL s (s.setFlags f) :=
  sameButGL_iff.mpr ⟨f, h, rfl⟩

/-- The advance does not read the flags (R27). -/
theorem State.advance_setFlags (s : State) (f : Flags) (h : Handler) (op : Byte) :
    (s.setFlags f).advance h op = (s.advance h op).setFlags f := by
  unfold State.advance; dsimp only [State.setFlags_pc]; split <;> rfl

/-- An advance that follows the same effect on two states keeps them alike but for G and L. -/
theorem sameButGL_advance {s s' : State} (h : SameButGL s s') (g : Handler) (op : Byte) :
    SameButGL (s.advance g op) (s'.advance g op) := by
  obtain ⟨f, hf, rfl⟩ := sameButGL_iff.mp h
  rw [State.advance_setFlags]
  exact sameButGL_setFlags (hf.trans (congrArg Flags.e (State.advance_flags s g op)).symm)

/-- No data effect reads a flag, and COMPARE overwrites all three (R29, R30). -/
theorem sameButGL_effectOf {s s' : State} (h : SameButGL s s') (i : Instr) :
    SameButGL (effectOf i s) (effectOf i s') := by
  obtain ⟨f, hf, rfl⟩ := sameButGL_iff.mp h
  cases i with
  | compare regA regB => exact sameButGL_refl _
  | _ => exact sameButGL_setFlags (f := f) hf

/-- The branch conditions read E alone, so both states advance or neither does (R30). -/
theorem advances_setFlags {i : Instr} {s : State} {f : Flags} (hf : f.e = s.flags.e) (ha : Advances i s) :
    Advances i (s.setFlags f) := by
  cases i with
  | jumpIfEqual reg => exact hf.trans ha
  | jumpIfNotEqual reg => exact hf.trans ha
  | _ => exact ha

/-- The body of an instruction keeps two states alike but for G and L. -/
theorem sameButGL_bodyOf {s s' : State} (h : SameButGL s s') (i : Instr) : SameButGL (bodyOf i s) (bodyOf i s') := by
  obtain ⟨f, hf, rfl⟩ := sameButGL_iff.mp h
  by_cases ha : Advances i s
  · rw [bodyOf_of_advances ha, bodyOf_of_advances (advances_setFlags hf ha)]
    exact sameButGL_advance (sameButGL_effectOf h i) _ _
  · cases i with
    | halt => exact sameButGL_setFlags hf
    | jump reg => exact sameButGL_setFlags hf
    | jumpIfEqual reg =>
      have he : s.flags.equal = true := Bool.eq_true_of_not_eq_false ha
      have he' : (s.setFlags f).flags.equal = s.flags.equal := hf
      rw [bodyOf, bodyOf, he', if_pos he, if_pos he]
      exact sameButGL_setFlags hf
    | jumpIfNotEqual reg =>
      have he : s.flags.equal = false := Bool.eq_false_of_not_eq_true ha
      have he' : (s.setFlags f).flags.equal = s.flags.equal := hf
      rw [bodyOf, bodyOf, he', if_pos he, if_pos he]
      exact sameButGL_setFlags hf
    | _ => exact absurd trivial ha

/-- One instruction keeps two states alike but for G and L: its checks do not read the flags, nor does its body G and L. -/
theorem sameButGL_exec {s s' : State} (h : SameButGL s s') (i : Instr) :
    ∃ t t', exec i s = .next t ∧ exec i s' = .next t' ∧ SameButGL t t' := by
  obtain ⟨f, hf, rfl⟩ := sameButGL_iff.mp h
  obtain ⟨hp, e⟩ | ⟨hp, b, hb, e⟩ | ⟨hp, hw, e⟩ := exec_cases i s
  · exact ⟨_, _, e, exec_of_operand_past (s := s.setFlags f) hp, sameButGL_setFlags hf⟩
  · exact ⟨_, _, e, exec_of_bad_register (s := s.setFlags f) hp hb, sameButGL_setFlags hf⟩
  · exact ⟨_, _, e, exec_of_ok (s := s.setFlags f) hp hw, sameButGL_bodyOf h i⟩

/-- The fetch does not read the flags (R82). -/
theorem fetch_setFlags (m : OpcodeMap) (s : State) (f : Flags) : fetch m (s.setFlags f) = fetch m s := rfl

/-- The step of a Running core keeps two states alike but for G and L. -/
theorem sameButGL_runStep {s s' : State} (h : SameButGL s s') (m : OpcodeMap) :
    ∃ t t', runStep m s = .next t ∧ runStep m s' = .next t' ∧ SameButGL t t' := by
  obtain ⟨f, hf, rfl⟩ := sameButGL_iff.mp h
  unfold runStep
  rw [fetch_setFlags]
  cases fetch m s with
  | instr i => exact sameButGL_exec h i
  | raised k a => exact ⟨_, _, rfl, rfl, sameButGL_setFlags hf⟩

/-- One step under the same host inputs keeps two states alike but for G and L. -/
theorem sameButGL_stepWith {s s' : State} (h : SameButGL s s') (P : Params) :
    ∃ t t', stepWith P s = .next t ∧ stepWith P s' = .next t' ∧ SameButGL t t' := by
  obtain ⟨f, hf, rfl⟩ := sameButGL_iff.mp h
  have hpins : SameButGL s.dropPins (s.setFlags f).dropPins := sameButGL_setFlags hf
  obtain ⟨hr, e⟩ | ⟨hr, hh, e⟩ | ⟨hr, hh, e⟩ := stepWith_cases P s
  · exact ⟨_, _, e, stepWith_of_reset (s := s.setFlags f) P hr, sameButGL_refl _⟩
  · refine ⟨_, _, e, stepWith_of_halted (s := s.setFlags f) P hr hh, ?_⟩
    rw [haltedStep_eq, haltedStep_eq]
    exact sameButGL_setFlags (f := f) hf
  · rw [e, stepWith_of_running (s := s.setFlags f) P hr hh]
    exact sameButGL_runStep hpins P.opcodes

/-- Settles O48: by induction on the number of steps, with the simulation of one step. -/
theorem greaterAndLesserAreUnobservable : Obligations.GreaterAndLesserAreUnobservable := by
  intro P n
  induction n with
  | zero => exact fun s s' h => ⟨s, s', rfl, rfl, h⟩
  | succ n ih =>
    intro s s' h
    obtain ⟨t, t', hs, hs', ht⟩ := sameButGL_stepWith h P
    rw [runFor_succ n hs, runFor_succ n hs']
    exact ih t t' ht

end Sys2Proof.Machine
end

section
/-! Register writes modulo 256 and SP as register 7 (O20, O21), and the sequential advance (O29). -/

namespace Sys2Proof.Machine

open Sys2Proof.Claim

@[simp] theorem State.reg_advance (s : State) (h : Handler) (op : Byte) (i : RegIdx) :
    (s.advance h op).reg i = s.reg i :=
  State.reg_of_regs (s.advance_regs h op) i

@[simp] theorem State.sp_advance (s : State) (h : Handler) (op : Byte) : (s.advance h op).sp = s.sp :=
  s.reg_advance h op spIndex

/-- Decrementing SP adds 255 modulo 256 (R24). -/
theorem toNat_sub_one (v : Byte) : (v - 1).toNat = (v.toNat + 255) % 256 := by
  rw [BitVec.toNat_sub, Nat.add_comm]; rfl

/-- One register operand below 8 makes a well-formed operand list (R22). -/
theorem regOperandOk_of_lt {b : Byte} (h : b.toNat < 8) : regOperandOk b = true :=
  decide_eq_true (Nat.le_of_lt_succ h)

/-- PUSH leaves SP one lower, whatever becomes of the advance (R140). -/
theorem exec_push_sp {s : State} {reg : Byte} (hr : reg.toNat < 8) (hp : s.pc.toNat ≤ 254) :
    ∃ t, exec (.push reg) s = .next t ∧ t.sp = s.sp - 1 := by
  have hw : (Instr.push reg).wellFormed = true := by simp [Instr.wellFormed, Instr.regOperands, regOperandOk_of_lt hr]
  refine ⟨_, exec_of_ok (by simp [Instr.handler, Handler.operandCount]; omega) hw, ?_⟩
  obtain ⟨hsp, _⟩ := s.pushByte_spec (s.reg (regOf reg))
  simpa [bodyOf] using hsp

/-- POP to another register leaves SP one higher (R142). -/
theorem exec_pop_sp {s : State} {reg : Byte} (hr : reg.toNat < 8) (h7 : reg.toNat ≠ 7) (hp : s.pc.toNat ≤ 254) :
    ∃ t, exec (.pop reg) s = .next t ∧ t.sp = s.sp + 1 := by
  have hw : (Instr.pop reg).wellFormed = true := by simp [Instr.wellFormed, Instr.regOperands, regOperandOk_of_lt hr]
  have hne : regOf reg ≠ spIndex := by
    rw [regOf_eq hr]; exact fun h => h7 (congrArg Fin.val h)
  refine ⟨_, exec_of_ok (by simp [Instr.handler, Handler.operandCount]; omega) hw, ?_⟩
  obtain ⟨_, hsp, _⟩ := s.popInto_spec (regOf reg)
  simpa [bodyOf] using hsp hne

/-- MULTIPLY leaves the ALU's product in its first register (R120). -/
theorem exec_multiply_reg {s : State} {regA regB : Byte} (hA : regA.toNat < 8) (hB : regB.toNat < 8)
    (hp : s.pc.toNat ≤ 253) :
    ∃ t, exec (.multiply regA regB) s = .next t ∧
      t.reg (regOf regA) = mulByte (s.reg (regOf regA)) (s.reg (regOf regB)) := by
  have hw : (Instr.multiply regA regB).wellFormed = true := by
    simp [Instr.wellFormed, Instr.regOperands, regOperandOk_of_lt hA, regOperandOk_of_lt hB]
  refine ⟨_, exec_of_ok (by simp [Instr.handler, Handler.operandCount]; omega) hw, ?_⟩
  simp [bodyOf, State.reg_setReg]

/-- Settles O21: the register each of the three instructions leaves, read as a number. -/
theorem registerWritesAreModulo256 : Obligations.RegisterWritesAreModulo256 := by
  intro s reg regB hr hB hp
  refine ⟨?_, fun h7 => ?_, fun a b ha hb => ?_⟩
  · obtain ⟨t, ht, hsp⟩ := exec_push_sp (s := s) hr (by omega)
    exact ⟨t, ht, by rw [hsp, toNat_sub_one], fun h0 => by rw [hsp, h0]; rfl⟩
  · obtain ⟨t, ht, hsp⟩ := exec_pop_sp (s := s) hr h7 (by omega)
    exact ⟨t, ht, by rw [hsp, BitVec.toNat_add]; rfl, fun h0 => by rw [hsp, h0]; rfl⟩
  · obtain ⟨t, ht, hv⟩ := exec_multiply_reg (s := s) hr hB (by omega)
    rw [regOf_eq hr, regOf_eq hB] at hv
    obtain rfl : a = ⟨reg.toNat, hr⟩ := Fin.ext ha
    obtain rfl : b = ⟨regB.toNat, hB⟩ := Fin.ext hb
    exact ⟨t, ht, by rw [hv, mulByte_toNat]⟩

/-- Settles O20: LOAD_IMMEDIATE 7 writes the SP that a later PUSH decrements and that PRINT_REGISTER 7 emits. -/
theorem stackPointerIsRegisterSeven : Obligations.StackPointerIsRegisterSeven := by
  intro s v hp
  have hload : exec (.loadImmediate 7 v) s = .next (bodyOf (.loadImmediate 7 v) s) :=
    exec_of_ok (by simp [Instr.handler, Handler.operandCount]; omega) rfl
  have hprint : exec (.printRegister 7) s = .next (bodyOf (.printRegister 7) s) :=
    exec_of_ok (by simp [Instr.handler, Handler.operandCount]; omega) rfl
  have hsp : (bodyOf (.loadImmediate 7 v) s).sp = v := by
    simp [bodyOf, State.sp, State.reg_setReg, regOf, spIndex]
  have hpc : (bodyOf (.loadImmediate 7 v) s).pc.toNat ≤ 254 := by
    rw [bodyOf, State.advance_of_le _ _ _ (by simp [Handler.length, Handler.operandCount]; omega)]
    simp [Handler.length, Handler.operandCount]; omega
  refine ⟨⟨_, hload, hsp, fun reg hr => ?_⟩, _, hprint, ?_⟩
  · obtain ⟨u, hu, husp⟩ := exec_push_sp hr hpc
    exact ⟨u, hu, by rw [← hsp]; exact husp⟩
  · simp [bodyOf, State.sp, regOf, spIndex]

/-- Settles O29: the instruction's data effect does not depend on `pc`, and the advance that ends it adds the length or
faults at 256. -/
theorem sequentialAdvanceNeverWraps : Obligations.SequentialAdvanceNeverWraps := by
  refine ⟨⟨rfl, rfl, rfl, rfl, rfl, rfl, rfl, rfl⟩, fun i s hw ha hp => ?_⟩
  have h0 : exec i { s with pc := 0 } = .next (bodyOf i { s with pc := 0 }) :=
    exec_of_ok (by have := i.handler.operandCount_le_two; simp; omega) hw
  have ha0 : Advances i { s with pc := 0 } := ha
  refine ⟨_, _, exec_of_ok hp hw, h0, ?_⟩
  rw [bodyOf_of_advances ha, bodyOf_of_advances ha0, effectOf_setPc i s 0]
  refine ⟨?_, ?_, ?_, ?_, fun hle => ?_, fun hlt => ?_⟩
  · rw [State.advance_regs, State.advance_regs]
  · rw [State.advance_mem, State.advance_mem]
  · rw [State.advance_flags, State.advance_flags]
  · rw [State.advance_out, State.advance_out]
  · rw [State.advance_of_le _ _ _ (by simpa using hle)]
    refine ⟨?_, effectOf_fsm i s, effectOf_fault i s⟩
    simp; omega
  · have htop : s.pc.toNat + i.handler.length = 256 := by unfold Handler.length at hlt ⊢; omega
    rw [State.advance_of_top _ _ _ (by simpa using htop)]
    simp [State.opcodeByte]

end Sys2Proof.Machine
end

section
/-! Who writes the flags (O45), the FSM (O35), and the values after reset (O1, O2). -/

namespace Sys2Proof.Machine

open Sys2Proof.Claim

/-- The body of an instruction other than COMPARE leaves the flags (R29). -/
theorem bodyOf_flags {i : Instr} (h : i.handler ≠ .compare) (s : State) : (bodyOf i s).flags = s.flags := by
  obtain ⟨_, hb⟩ | ⟨_, _, v, hb⟩ | ⟨_, hb⟩ := bodyOf_cases i s <;> rw [hb]
  · rfl
  · rfl
  · rw [State.advance_flags, effectOf_flags h]

/-- The body of COMPARE leaves exactly one flag set (R29, R122). -/
theorem bodyOf_flags_exactlyOne {i : Instr} (h : i.handler = .compare) (s : State) :
    (bodyOf i s).flags.exactlyOne = true := by
  cases i with
  | compare regA regB => rw [bodyOf, State.advance_flags]; exact compareFlags_exactlyOne _ _
  | _ => cases h

/-- Settles O45: a stop in a check leaves the flags, and so does every body but COMPARE's. -/
theorem onlyCompareWritesFlags : Obligations.OnlyCompareWritesFlags := by
  intro i s t h
  obtain ⟨hp, he⟩ | ⟨hp, b, hb, he⟩ | ⟨hp, hw, he⟩ := exec_cases i s <;> rw [he] at h <;> cases h
  · exact ⟨fun _ => rfl, fun hc _ hle => by rw [hc] at hp; simp [Handler.operandCount] at hp; omega, fun _ _ => rfl⟩
  · refine ⟨fun _ => rfl, fun _ hw => ?_, fun _ _ => rfl⟩
    rw [(firstBad_none_iff i).mpr hw] at hb; cases hb
  · refine ⟨fun hc => bodyOf_flags hc s, fun hc _ _ => bodyOf_flags_exactlyOne hc s, fun hc hbad => ?_⟩
    obtain hbad | hbad := hbad
    · rw [hw] at hbad; cases hbad
    · rw [hc] at hp; simp [Handler.operandCount] at hp; omega

/-- What the step of a Running core does to the FSM: HALT or a fault stops it, and any other instruction leaves it
Running and the record as it was (R32, R155). -/
theorem runStep_fsm_cases {m : OpcodeMap} {s t : State} (hr : s.fsm = .running) (h : runStep m s = .next t) :
    (t.fsm = .halted ∧ (s.opcodeByte = m.byteOf .halt ∨ t.fault.valid = true)) ∨
    (t.fsm = .running ∧ t.fault = s.fault ∧ ∃ g : Handler, g ≠ .halt ∧ decodeOp m s.opcodeByte = some g) := by
  obtain ⟨k, a, _, he⟩ | ⟨i, hd, _, he⟩ := runStep_cases m s <;> rw [he] at h <;> cases h
  · exact .inl ⟨rfl, .inr rfl⟩
  obtain ⟨hh, hb⟩ | ⟨hh, _, v, hb⟩ | ⟨ha, hb⟩ := bodyOf_cases i s <;> rw [hb]
  · exact .inl ⟨rfl, .inl (by rw [← hh]; exact (decodeOp_sound hd).symm)⟩
  · exact .inr ⟨hr, rfl, _, hh, hd⟩
  · obtain ⟨_, e⟩ | ⟨_, e⟩ := (effectOf i s).advance_cases i.handler s.opcodeByte <;> rw [e]
    · exact .inr ⟨(effectOf_fsm i s).trans hr, effectOf_fault i s, _, (handler_ne_of_advances ha).1, hd⟩
    · exact .inl ⟨rfl, .inr rfl⟩

/-- A Running core without a fault is stopped exactly by HALT or by a fault (R32, R155). -/
theorem runStep_halted_iff {m : OpcodeMap} (hm : m.Injective) {s t : State} (hr : s.fsm = .running)
    (hv : s.fault.valid = false) (h : runStep m s = .next t) :
    t.fsm = .halted ↔ s.opcodeByte = m.byteOf .halt ∨ t.fault.valid = true := by
  obtain ⟨ht, hcause⟩ | ⟨ht, hf, g, hg, hd⟩ := runStep_fsm_cases hr h
  · exact iff_of_true ht hcause
  · refine iff_of_false (by rw [ht]; exact FsmState.noConfusion) ?_
    rintro (hop | hfault)
    · rw [hop, decodeOp_byteOf hm] at hd
      exact hg (Option.some.inj hd).symm
    · rw [hf, hv] at hfault
      cases hfault

/-- Settles O35: the host alone moves a Halted core, HALT, a fault or a reset alone stops a Running one. -/
theorem fsmTransitions : Obligations.FsmTransitions := by
  refine ⟨rfl, fun P s t hm h => ?_⟩
  obtain ⟨hr, he⟩ | ⟨hr, hh, he⟩ | ⟨hr, hh, he⟩ := stepWith_cases P s <;> rw [he] at h
  · cases h
    simp [hr]
  · cases h
    rw [haltedStep_eq]
    have hnot : s.fsm ≠ .running := by rw [hh]; exact FsmState.noConfusion
    exact ⟨fun _ => by simp [hr, hh], fun _ _ => ⟨rfl, rfl, rfl, rfl, rfl, fun hw => by simp [hw]⟩,
      fun hrun => absurd hrun hnot, fun hrun => absurd hrun hnot⟩
  · refine ⟨?_, ?_, fun _ hv => ?_, fun _ ht => ?_⟩
    · simp [hh]
    · simp [hh]
    · rw [runStep_halted_iff hm (s := s.dropPins) hh hv h]
      simp [hr, State.opcodeByte]
    · obtain ⟨_, hcause⟩ | ⟨hrun, _⟩ := runStep_fsm_cases (s := s.dropPins) hh h
      · exact .inr hcause
      · rw [ht] at hrun; cases hrun

/-- Settles O1: each field of the reset state has the value of R38's table. -/
theorem resetLeavesTheTabledValues : Obligations.ResetLeavesTheTabledValues :=
  ⟨fun _ => rfl, by decide, rfl, rfl, rfl, rfl, rfl, rfl⟩

/-- Settles O2: HALT has no check to fail, and `State.halt` writes `pc`. -/
theorem programCounterZeroAfterResetAndHalt : Obligations.ProgramCounterZeroAfterResetAndHalt :=
  ⟨rfl, fun s => ⟨s.halt, rfl, s.halt_pc⟩⟩

end Sys2Proof.Machine
end

section
/-! The step of a core whose next instruction is known: from the bytes at `pc` to that instruction's effect. -/

namespace Sys2Proof.Machine

open Sys2Proof.Claim

/-- Without a reset in the next steps, the coming step has none, and the later ones have none after it. -/
theorem State.NoResetFor.of_succ {s : State} {n : Nat} (h : s.NoResetFor (n + 1)) :
    s.nextPins.rst = false ∧ s.dropPins.NoResetFor n := by
  unfold State.NoResetFor State.nextPins State.dropPins at *
  cases hs : s.hostIn with
  | nil => exact ⟨rfl, by simp⟩
  | cons p ps =>
    rw [hs, List.take_succ_cons] at h
    exact ⟨h p List.mem_cons_self, fun q hq => h q (List.mem_cons_of_mem p hq)⟩

/-- Below the top of memory the address `a + k` does not wrap (R53, R54). -/
theorem State.readByte_add (s : State) {a : Byte} {k : Nat} (h : a.toNat + k ≤ 255) :
    s.readByte (a + BitVec.ofNat 8 k) = s.mem.read (a.toNat + k) := by
  have hwrap : (a + BitVec.ofNat 8 k).toNat = a.toNat + k := by simp; omega
  rw [State.readByte, hwrap]

/-- The opcode of an instruction at `pc` is the byte the fetch reads (R70, R82). -/
theorem opcodeByte_of_at {m : OpcodeMap} {i : Instr} {s : State} (h : At m i s) :
    s.opcodeByte = m.byteOf i.handler := by
  obtain ⟨_, hbytes⟩ := h
  exact hbytes 0 (by simp [encodeWith])

/-- The operands of an instruction at `pc` are the bytes the fetch reads after the opcode (R71, R82). -/
theorem operandBytes_of_at {m : OpcodeMap} {i : Instr} {s : State} (h : At m i s) :
    i.operandBytes = [s.readByte (s.pc + 1), s.readByte (s.pc + 2)].take i.handler.operandCount := by
  obtain ⟨hp, hbytes⟩ := h
  have hlen := i.length_operandBytes
  have hcount := i.handler.operandCount_le_two
  have hread : ∀ k (hk : k < i.operandBytes.length), s.mem.read (s.pc.toNat + (k + 1)) = i.operandBytes[k] :=
    fun k hk => hbytes (k + 1) (by simpa [encodeWith] using hk)
  refine List.ext_getElem (by simp; omega) fun k hk _ => ?_
  rw [← hread k hk, List.getElem_take]
  obtain rfl | rfl : k = 0 ∨ k = 1 := by omega
  · exact (s.readByte_add (a := s.pc) (k := 1) (by omega)).symm
  · exact (s.readByte_add (a := s.pc) (k := 2) (by omega)).symm

/-- The fetch gives the instruction whose bytes stand at `pc` (R82). -/
theorem fetch_of_at {m : OpcodeMap} (hm : m.Injective) {i : Instr} {s : State} (h : At m i s) :
    fetch m s = .instr i := by
  have hdec : decodeOp m s.opcodeByte = some i.handler := by rw [opcodeByte_of_at h, decodeOp_byteOf hm]
  have hp : s.pc.toNat + i.handler.operandCount ≤ 255 := h.1
  obtain ⟨hd, _⟩ | ⟨g, hd, hlt, _⟩ | ⟨g, j, hd, _, hj, hb, hf⟩ := fetch_cases m s <;> rw [hdec] at hd
  · cases hd
  · cases hd; omega
  · cases hd
    rw [hf, Instr.ext_of_bytes hj (hb.trans (operandBytes_of_at h).symm)]

/-- An executed step runs the instruction whose bytes stand at `pc` (R82, R174). -/
theorem stepWith_of_at {P : Params} (hm : P.opcodes.Injective) {i : Instr} {s : State} (hx : Executes s)
    (h : At P.opcodes i s) : stepWith P s = exec i s.dropPins := by
  obtain ⟨hrun, hrst⟩ := hx
  rw [stepWith_of_running P hrst hrun]
  simp only [runStep, fetch_dropPins, fetch_of_at hm h]

/-- HALT stands at `pc` as soon as its opcode does: it has no operand (R72, R100). -/
theorem at_halt {m : OpcodeMap} {s : State} (h : s.opcodeByte = m.byteOf .halt) : At m .halt s := by
  refine ⟨Nat.le_of_lt_succ s.pc.isLt, fun k hk => ?_⟩
  obtain rfl : k = 0 := by simpa [encodeWith, Instr.operandBytes] using hk
  exact h

/-- An executed step at a byte that is no opcode raises `DECODE_ERROR` at `pc` (R80, R150). -/
theorem stepWith_of_no_opcode (P : Params) {s : State} (hx : Executes s)
    (hd : ∀ g : Handler, P.opcodes.byteOf g ≠ s.opcodeByte) :
    stepWith P s = .next (stopped s.dropPins .decodeError (s.pc.setWidth 9) s.opcodeByte) := by
  obtain ⟨hrun, hrst⟩ := hx
  have haddr : BitVec.ofNat 9 s.pc.toNat = s.pc.setWidth 9 := BitVec.eq_of_toNat_eq (by simp)
  obtain ⟨_, hf⟩ | ⟨g, hg, _⟩ | ⟨g, _, hg, _⟩ := fetch_cases P.opcodes s
  · rw [stepWith_of_running P hrst hrun, ← haddr]
    simp only [runStep, fetch_dropPins, hf]
    rfl
  · exact absurd (decodeOp_sound hg) (hd g)
  · exact absurd (decodeOp_sound hg) (hd g)

/-- Every step has a next state: each fault of the spec is one (R153). -/
theorem exists_stepWith_eq_next (P : Params) (s : State) : ∃ t, stepWith P s = .next t := by
  obtain ⟨_, he⟩ | ⟨_, _, he⟩ | ⟨_, _, he⟩ := stepWith_cases P s
  · exact ⟨_, he⟩
  · exact ⟨_, he⟩
  · obtain ⟨_, _, _, hr⟩ | ⟨_, _, _, hr⟩ := runStep_cases P.opcodes s.dropPins
    · exact ⟨_, he.trans hr⟩
    · exact ⟨_, he.trans hr⟩

end Sys2Proof.Machine
end

section
/-! Memory and the program in it: only PUSH writes it (O47), and the next fetch reads what PUSH wrote (O55). -/

namespace Sys2Proof.Machine

open Sys2Proof.Claim

/-- A data effect leaves memory, unless it is PUSH's, which writes one byte at SP - 1 (R50, R140). -/
theorem effectOf_mem_cases (i : Instr) (s : State) :
    (effectOf i s).mem = s.mem ∨
    (i.handler = .push ∧ ∃ v, (effectOf i s).mem = s.mem.write (s.sp - 1).toNat v) := by
  cases i with
  | push reg => exact .inr ⟨rfl, _, rfl⟩
  | _ => exact .inl rfl

/-- The body of an instruction leaves memory, unless it is PUSH's, which writes one byte at SP - 1 (R50, R140). -/
theorem bodyOf_mem_cases (i : Instr) (s : State) :
    (bodyOf i s).mem = s.mem ∨ (i.handler = .push ∧ ∃ v, (bodyOf i s).mem = s.mem.write (s.sp - 1).toNat v) := by
  obtain ⟨_, hb⟩ | ⟨_, _, v, hb⟩ | ⟨_, hb⟩ := bodyOf_cases i s <;> rw [hb]
  · exact .inl rfl
  · exact .inl rfl
  · rw [State.advance_mem]
    exact effectOf_mem_cases i s

/-- The step of a Running core leaves memory, unless PUSH's opcode stands at `pc` and its byte is written at SP - 1. -/
theorem runStep_mem_cases {m : OpcodeMap} {s t : State} (h : runStep m s = .next t) :
    t.mem = s.mem ∨ (s.opcodeByte = m.byteOf .push ∧ ∃ v, t.mem = s.mem.write (s.sp - 1).toNat v) := by
  obtain ⟨k, a, _, he⟩ | ⟨i, hd, _, he⟩ := runStep_cases m s <;> rw [he] at h <;> cases h
  · exact .inl rfl
  · obtain hm | ⟨hpush, hm⟩ := bodyOf_mem_cases i s
    · exact .inl hm
    · exact .inr ⟨by rw [← decodeOp_sound hd, hpush], hm⟩

/-- Settles O47: `runStep_mem_cases`, and a write changes what its own address reads and no other. -/
theorem onlyPushWritesMemory : Obligations.OnlyPushWritesMemory := by
  intro P s t ⟨hrun, hrst⟩ h a hne
  rw [stepWith_of_running P hrst hrun] at h
  obtain hm | ⟨hop, v, hm⟩ := runStep_mem_cases h
  · exact absurd (by rw [hm]; rfl) hne
  · refine ⟨hop, by_contra fun ha => hne ?_⟩
    rw [hm]
    exact Memory.read_write_other _ v ha

/-- A PUSH that neither faults nor ends at the top of memory: its data part, and `pc` two further (R140). -/
theorem exec_push_of_le {s : State} {reg : Byte} (hr : reg.toNat < 8) (hp : s.pc.toNat ≤ 253) :
    exec (.push reg) s = .next { s.pushByte s.regs[reg.toNat] with pc := s.pc + 2 } := by
  have hw : (Instr.push reg).wellFormed = true := by simp [Instr.wellFormed, Instr.regOperands, regOperandOk_of_lt hr]
  rw [exec_of_ok (by simp [Instr.handler, Handler.operandCount]; omega) hw, bodyOf, regOf_eq hr,
    State.advance_of_le _ _ _ (by simp [Handler.length, Handler.operandCount]; omega)]
  rfl

/-- Settles O55: the byte stands at the new `pc`, so the next step is the one HALT or an unknown opcode gives there. -/
theorem pushedByteIsSeenByTheNextFetch : Obligations.PushedByteIsSeenByTheNextFetch := by
  intro P s reg hr hm hrun hno hp hat hsp
  obtain ⟨hrst, hno⟩ := hno.of_succ
  obtain ⟨hrst', _⟩ := hno.of_succ
  have hs := (stepWith_of_at hm ⟨hrun, hrst⟩ hat).trans (exec_push_of_le (s := s.dropPins) hr hp)
  obtain ⟨_, hbyte, _⟩ := s.pushByte_spec s.regs[reg.toNat]
  rw [hsp] at hbyte
  generalize ht : { s.dropPins.pushByte s.dropPins.regs[reg.toNat] with pc := s.dropPins.pc + 2 } = t at hs
  have hpc : t.pc = s.pc + 2 := by rw [← ht]; rfl
  have hop : t.opcodeByte = s.regs[reg.toNat] := by rw [← ht]; exact hbyte
  have hfault : t.fault = s.fault := by rw [← ht]; rfl
  have hx : Executes t := by rw [← ht]; exact ⟨hrun, hrst'⟩
  obtain ⟨u, hu⟩ := exists_stepWith_eq_next P t
  refine ⟨t, u, hs, hu, hpc, hop, fun hv => ?_, fun hv => ?_⟩
  · rw [stepWith_of_at hm hx (at_halt (hop.trans hv))] at hu
    cases hu
    exact ⟨rfl, rfl, hfault⟩
  · rw [← hop] at hv ⊢
    rw [stepWith_of_no_opcode P hx hv] at hu
    cases hu
    rfl

end Sys2Proof.Machine
end

section
/-! The decoder and the encoder undo each other (O5, O6, O7), and what follows for the table of R76 (O3, O4). -/

namespace Sys2Proof

/-- Each handler takes exactly its own instruction's operand bytes (R71). -/
theorem takeOperands_operandBytes_append (i : Instr) (rest : List Byte) :
    takeOperands i.handler (i.operandBytes ++ rest) = .ok (i, rest) := by
  cases i <;> rfl

/-- The operands a handler takes are those of its instruction, at the front of the bytes given (R71, R73). -/
theorem takeOperands_eq_ok {h : Handler} {bs rest : List Byte} {i : Instr} (ht : takeOperands h bs = .ok (i, rest)) :
    i.handler = h ∧ bs = i.operandBytes ++ rest := by
  obtain ⟨j, hj, hb, _, he⟩ | ⟨_, he⟩ := takeOperands_cases h bs <;> rw [he] at ht <;> cases ht
  exact ⟨hj, by rw [hb, List.take_append_drop]⟩

/-- Decoding gives an encoded instruction back, under every injective map (R71, R80). -/
theorem decodeWith_encodeWith_append {m : OpcodeMap} (hm : m.Injective) (i : Instr) (rest : List Byte) :
    decodeWith m (encodeWith m i ++ rest) = .ok (i, rest) := by
  show decodeFrom m (m.byteOf i.handler) (i.operandBytes ++ rest) = _
  simp only [decodeFrom, decodeOp_byteOf hm, takeOperands_operandBytes_append]

/-- What decodes is an encoding, followed by the bytes returned (R71, R80). -/
theorem eq_encodeWith_append_of_decodeWith {m : OpcodeMap} {bytes rest : List Byte} {i : Instr}
    (hd : decodeWith m bytes = .ok (i, rest)) : bytes = encodeWith m i ++ rest := by
  cases bytes with
  | nil => cases hd
  | cons op bs =>
    simp only [decodeWith, decodeFrom] at hd
    cases hop : decodeOp m op with
    | none => simp [hop] at hd
    | some h =>
      simp only [hop] at hd
      obtain ⟨rfl, rfl⟩ := takeOperands_eq_ok hd
      rw [← decodeOp_sound hop]
      rfl

/-- Decoding gives an encoded instruction back under the default map (R76). -/
theorem decode_encode (i : Instr) : decode (encode i) = .ok (i, []) := by
  simpa [decode, encode] using decodeWith_encodeWith_append Config.opcodeMap_injective i []

/-- Settles O6: the opcode selects the handler, which takes the operand bytes the encoder wrote. -/
theorem decodeOfEncodeIsTheInstruction : Obligations.DecodeOfEncodeIsTheInstruction :=
  fun _ i rest hm => decodeWith_encodeWith_append hm i rest

/-- Settles O7: the byte that selects a handler is its opcode, and the operands taken stand after it. -/
theorem decodedBytesAreTheEncoding : Obligations.DecodedBytesAreTheEncoding :=
  fun _ _ _ _ hd => eq_encodeWith_append_of_decodeWith hd

/-- Settles O5: the lookup is sound under any map and complete under an injective one. -/
theorem decodeSelectsTheHandlerWithTheOpcode : Obligations.DecodeSelectsTheHandlerWithTheOpcode :=
  fun _ hm _ => ⟨fun h => ⟨decodeOp_sound, fun hop => hop ▸ decodeOp_byteOf hm h⟩, decodeOp_eq_none_iff⟩

/-- Settles O3: bit for bit the ten words are encodings, and each decodes by the round trip. -/
theorem tableWordsDecodeToTheirInstructions : Obligations.TableWordsDecodeToTheirInstructions :=
  ⟨decode_encode .halt, decode_encode (.loadImmediate 3 200), decode_encode (.printRegister 4),
    decode_encode (.multiply 0 1), decode_encode (.compare 3 4), decode_encode (.jump 5),
    decode_encode (.jumpIfEqual 2), decode_encode (.jumpIfNotEqual 2), decode_encode (.push 7), decode_encode (.pop 1)⟩

/-- Settles O4: one byte of R76's table for each of the ten handlers. -/
theorem opcodeBitsFollowTheLayout : Obligations.OpcodeBitsFollowTheLayout := by
  intro h
  cases h <;> decide

end Sys2Proof
end

section
/-! The instruction a step runs: the one whose bytes decode at `pc` (O33), a word placed there among them (O42). -/

namespace Sys2Proof.Machine

open Sys2Proof.Claim

/-- The fetch gives the instruction that the bytes from `pc` on decode to (R82). -/
theorem fetch_of_decodeWith {m : OpcodeMap} {s : State} {i : Instr} {rest : List Byte}
    (hd : decodeWith m (s.opcodeByte :: operandWindow s) = .ok (i, rest)) : fetch m s = .instr i := by
  rw [decodeWith] at hd
  simp only [fetch, hd]

/-- An executed step runs the instruction that the bytes from `pc` on decode to (R82, R174). -/
theorem stepWith_of_decodeWith {P : Params} {s : State} {i : Instr} {rest : List Byte} (hx : Executes s)
    (hd : decodeWith P.opcodes (s.opcodeByte :: operandWindow s) = .ok (i, rest)) :
    stepWith P s = exec i s.dropPins := by
  obtain ⟨hrun, hrst⟩ := hx
  rw [stepWith_of_running P hrst hrun]
  simp only [runStep, fetch_dropPins, fetch_of_decodeWith hd]

/-- Settles O33: both forms for every choice of the parameters, and the host's step is the one at the defaults. -/
theorem stepRunsTheDecodedInstruction : Obligations.StepRunsTheDecodedInstruction :=
  ⟨fun _ _ hx => ⟨fun _ hd => stepWith_of_decodeWith (P := Config.params) hx hd,
      fun hat => stepWith_of_at (P := Config.params) Config.opcodeMap_injective hx hat⟩,
    fun _ _ _ hx => ⟨fun _ hd => stepWith_of_decodeWith hx hd, fun hm hat => stepWith_of_at hm hx hat⟩,
    fun _ => rfl⟩

/-- Storing bytes from `a` on leaves every lower address (R52). -/
theorem Memory.read_writeAll_below (m : Memory) {a c : Nat} (bs : List Byte) (hc : c < a) :
    (m.writeAll a bs).read c = m.read c := by
  induction bs generalizing m a with
  | nil => rfl
  | cons b bs ih =>
    unfold Memory.writeAll
    split
    · rw [ih _ (by omega), Memory.read_write_other _ _ (by omega)]
    · rfl

/-- Bytes stored from `a` on stand at `a`, `a + 1`, …, where they all fit into memory (R35, R52). -/
theorem Memory.read_writeAll (m : Memory) {a k : Nat} {bs : List Byte} (hfit : a + bs.length ≤ 256)
    (hk : k < bs.length) : (m.writeAll a bs).read (a + k) = bs[k] := by
  induction bs generalizing m a k with
  | nil => cases hk
  | cons b bs ih =>
    rw [List.length_cons] at hfit hk
    rw [Memory.writeAll, if_pos (by omega)]
    cases k with
    | zero => rw [Memory.read_writeAll_below _ _ (by omega)]; exact Memory.read_write_self m a b
    | succ k =>
      rw [← Nat.add_assoc, Nat.add_right_comm, List.getElem_cons_succ]
      exact ih (m.write a b) (by omega) (by omega)

/-- The bytes of an instruction placed at `pc` stand there, with whatever is placed after them (R70, R71). -/
theorem at_placeAtPc {m : OpcodeMap} {i : Instr} {s : State} {rest : List Byte}
    (hfit : s.pc.toNat + (encodeWith m i ++ rest).length ≤ 256) : At m i (s.placeAtPc (encodeWith m i ++ rest)) := by
  refine ⟨?_, fun k hk => ?_⟩
  · have hlen := i.length_operandBytes
    simp only [encodeWith, List.length_append, List.length_cons] at hfit
    show s.pc.toNat + _ ≤ 255
    omega
  · have hk' : k < (encodeWith m i ++ rest).length := by rw [List.length_append]; omega
    rw [← List.getElem_append_left (bs := rest) (h' := hk') hk]
    exact Memory.read_writeAll s.mem hfit hk'

/-- A table word that decodes is the encoding of its instruction, followed by the bytes the instruction leaves (R70). -/
theorem tableBytes_of_decodeTableWord {nbits w : Nat} {i : Instr} (hw : decodeTableWord nbits w = some i) :
    ∃ rest, tableBytes nbits w = encodeWith Config.opcodeMap i ++ rest := by
  unfold decodeTableWord at hw
  split at hw
  · next j rest hd => cases hw; exact ⟨rest, eq_encodeWith_append_of_decodeWith hd⟩
  · cases hw

/-- Settles O42: the placed word is an encoding, so its instruction stands at `pc`; no pins are left to take. -/
theorem placedWordIsTheNextInstruction : Obligations.PlacedWordIsTheNextInstruction := by
  intro s nbits w i hp hw
  obtain ⟨rest, hb⟩ := tableBytes_of_decodeTableWord hw
  have hfit : s.pc.toNat + (tableBytes nbits w).length ≤ 256 := by show _ + 3 ≤ 256; omega
  have hat : At Config.opcodeMap i (s.withFetchWord nbits w) := by
    rw [State.withFetchWord, hb]
    exact at_placeAtPc (hb ▸ hfit)
  exact stepWith_of_at (P := Config.params) Config.opcodeMap_injective ⟨rfl, rfl⟩ hat

end Sys2Proof.Machine
end

section
/-! The spec's names of the instructions (O56). -/

namespace Sys2Proof.Machine

/-- A function that gives the ten handlers ten different values is injective. -/
theorem handler_eq_of_nodup {α : Type} {f : Handler → α} (hf : (Handler.all.map f).Nodup) (h h' : Handler)
    (he : f h = f h') : h = h' :=
  List.inj_on_of_nodup_map hf h.mem_all h'.mem_all he

/-- Settles O56: neither list of ten names repeats one, and the two texts are computed. -/
theorem namesDistinguishHandlers : Obligations.NamesDistinguishHandlers :=
  ⟨handler_eq_of_nodup (by decide), handler_eq_of_nodup (by decide), by decide, by decide⟩

end Sys2Proof.Machine
end

section
/-! The exact result of an instruction from the outcome of its checks and of its advance, and its frame. -/

namespace Sys2Proof.Machine

open Sys2Proof.Claim

/-! ### The exact result -/

/-- A byte as a nine-bit fault address (R34, R151). -/
theorem ofNat_toNat_eq_setWidth (b : Byte) : BitVec.ofNat 9 b.toNat = b.setWidth 9 := BitVec.eq_of_toNat_eq (by simp)

/-- An operand past address 255 stops the instruction with the record of R152. -/
theorem exec_eq_stopped_of_operand_past {i : Instr} {s : State} (hp : 255 < s.pc.toNat + i.handler.operandCount) :
    exec i s = .next (stopped s .oobMemoryOperand 256 (s.readByte s.pc)) :=
  exec_of_operand_past hp

/-- The first register index above 7 stops the instruction with the record of R151. -/
theorem exec_eq_stopped_of_bad_register {i : Instr} {s : State} {b : Byte}
    (hp : s.pc.toNat + i.handler.operandCount ≤ 255) (hb : firstBad i = some b) :
    exec i s = .next (stopped s .oobRegister (b.setWidth 9) (s.readByte s.pc)) := by
  rw [exec_of_bad_register hp hb, ← ofNat_toNat_eq_setWidth]
  rfl

/-- A well-formed instruction that advances within memory: its data effect, and `pc` its length further (R27). -/
theorem exec_eq_effectOf_of_le {i : Instr} {s : State} (hw : i.wellFormed = true) (ha : Advances i s)
    (hp : s.pc.toNat + i.handler.length ≤ 255) :
    exec i s = .next { effectOf i s with pc := s.pc + BitVec.ofNat 8 i.handler.length } := by
  rw [exec_of_ok (by unfold Handler.length at hp; omega) hw, bodyOf_of_advances ha,
    State.advance_of_le _ _ _ (by rwa [effectOf_pc]), effectOf_pc]

/-- A well-formed instruction that ends at address 255: its data effect stands, and the advance faults (R27, R152). -/
theorem exec_eq_stopped_effectOf_of_top {i : Instr} {s : State} (hw : i.wellFormed = true) (ha : Advances i s)
    (hp : s.pc.toNat + i.handler.length = 256) :
    exec i s = .next (stopped (effectOf i s) .oobMemoryFetch 256 (s.readByte s.pc)) := by
  rw [exec_of_ok (by unfold Handler.length at hp; omega) hw, bodyOf_of_advances ha,
    State.advance_of_top _ _ _ (by rwa [effectOf_pc])]
  rfl

/-! ### The frame -/

/-- Two states that agree in everything but `pc`, the FSM state and the fault record. -/
structure SameData (s t : State) : Prop where
  mem : t.mem = s.mem
  regs : t.regs = s.regs
  flags : t.flags = s.flags
  out : t.out = s.out
  hostIn : t.hostIn = s.hostIn

theorem sameData_raise (s : State) (k : FaultKind) (a : Nat) (op : Byte) : SameData s (s.raise k a op) :=
  ⟨rfl, rfl, rfl, rfl, rfl⟩

theorem sameData_halt (s : State) : SameData s s.halt := ⟨rfl, rfl, rfl, rfl, rfl⟩

theorem sameData_branch (s : State) (v : Byte) : SameData s (s.branch v) := ⟨rfl, rfl, rfl, rfl, rfl⟩

theorem sameData_advance (s : State) (h : Handler) (op : Byte) : SameData s (s.advance h op) :=
  ⟨s.advance_mem h op, s.advance_regs h op, s.advance_flags h op, s.advance_out h op, s.advance_hostIn h op⟩

/-- Beside `pc`, the FSM state and the fault record, a body changes nothing or has the instruction's data effect. -/
theorem bodyOf_sameData (i : Instr) (s : State) :
    SameData s (bodyOf i s) ∨ SameData (effectOf i s) (bodyOf i s) := by
  obtain ⟨_, hb⟩ | ⟨_, _, v, hb⟩ | ⟨_, hb⟩ := bodyOf_cases i s <;> rw [hb]
  · exact .inl (sameData_halt s)
  · exact .inl (sameData_branch s v)
  · exact .inr (sameData_advance _ _ _)

/-- Beside `pc`, the FSM state and the fault record, an instruction changes nothing or has its data effect. -/
theorem exec_sameData {i : Instr} {s t : State} (h : exec i s = .next t) :
    SameData s t ∨ SameData (effectOf i s) t := by
  obtain ⟨_, he⟩ | ⟨_, b, _, he⟩ | ⟨_, _, he⟩ := exec_cases i s <;> rw [he] at h <;> cases h
  · exact .inl (sameData_raise s _ _ _)
  · exact .inl (sameData_raise s _ _ _)
  · exact bodyOf_sameData i s

/-- A well-formed instruction other than HALT that ends below the top of memory leaves FAULT and the FSM state. -/
theorem exec_keeps_fault_fsm {i : Instr} {s t : State} (h : exec i s = .next t) (hi : i.handler ≠ .halt)
    (hw : i.wellFormed = true) (hp : s.pc.toNat + i.handler.length ≤ 255) : t.fault = s.fault ∧ t.fsm = s.fsm := by
  rw [exec_of_ok (by unfold Handler.length at hp; omega) hw] at h
  cases h
  obtain ⟨hh, _⟩ | ⟨_, _, v, hb⟩ | ⟨_, hb⟩ := bodyOf_cases i s
  · exact absurd hh hi
  · rw [hb]
    exact ⟨rfl, rfl⟩
  · rw [hb, State.advance_of_le _ _ _ (by rwa [effectOf_pc])]
    exact ⟨effectOf_fault i s, effectOf_fsm i s⟩

end Sys2Proof.Machine
end

section
/-! The system and output instructions: HALT (O9, O26), PRINT_REGISTER (O10) as the only one that emits (O46), and the
frame of the instructions that only read registers (O23). -/

namespace Sys2Proof.Machine

open Sys2Proof.Claim

/-- PRINT_REGISTER is well-formed when its operand names a register (R22, R81). -/
theorem wellFormed_printRegister {reg : Byte} (h : reg.toNat < 8) : (Instr.printRegister reg).wellFormed = true := by
  simp [Instr.wellFormed, Instr.regOperands, regOperandOk_of_lt h]

/-- PRINT_REGISTER's data effect: the byte of the register its operand names is emitted (R103). -/
theorem effectOf_printRegister {reg : Byte} (h : reg.toNat < 8) (s : State) :
    effectOf (.printRegister reg) s = { s with out := s.out ++ [s.regs[reg.toNat]] } := by
  rw [effectOf, regOf_eq h]
  rfl

/-- Only PRINT_REGISTER has an effect on the output (R105). -/
theorem effectOf_out {i : Instr} (h : i.handler ≠ .printRegister) (s : State) : (effectOf i s).out = s.out := by
  cases i with
  | printRegister => exact absurd rfl h
  | _ => rfl

/-- PRINT_REGISTER, COMPARE and the jumps have no effect on registers and memory (R103, R122, R130). -/
theorem effectOf_reader {i : Instr}
    (h : i.handler ∈ [Handler.printRegister, .compare, .jump, .jumpIfEqual, .jumpIfNotEqual]) (s : State) :
    (effectOf i s).regs = s.regs ∧ (effectOf i s).mem = s.mem := by
  cases i with
  | loadImmediate | multiply | push | pop => simp [Instr.handler] at h
  | _ => exact ⟨rfl, rfl⟩

/-- A Running core whose step changes the output stands at PRINT_REGISTER's opcode (R105). -/
theorem opcodeByte_of_runStep_emits {m : OpcodeMap} {s t : State} (h : runStep m s = .next t) (hne : t.out ≠ s.out) :
    s.opcodeByte = m.byteOf .printRegister := by
  obtain ⟨_, _, _, he⟩ | ⟨i, hd, _, he⟩ := runStep_cases m s <;> rw [he] at h <;> cases h
  · exact absurd rfl hne
  · obtain hs | hs := bodyOf_sameData i s
    · exact absurd hs.out hne
    · have hi : i.handler = .printRegister := by_contra fun hi => hne (hs.out.trans (effectOf_out hi s))
      rw [← hi, decodeOp_sound hd]

/-- Settles O10: one lemma per outcome of the checks and of the advance, with `effectOf_printRegister`. -/
theorem printRegisterEmitsTheRegister : Obligations.PrintRegisterEmitsTheRegister := by
  refine ⟨fun _ _ => rfl, rfl, fun reg s => ⟨fun h hp => ?_, fun h hp => ?_, fun hp => ?_, fun hp h => ?_⟩⟩
  · rw [exec_eq_effectOf_of_le (wellFormed_printRegister h) trivial (by show _ + 2 ≤ 255; omega),
      effectOf_printRegister h]
    rfl
  · rw [exec_eq_stopped_effectOf_of_top (wellFormed_printRegister h) trivial (by show _ + 2 = 256; omega),
      effectOf_printRegister h]
  · exact exec_eq_stopped_of_operand_past (by show 255 < _ + 1; omega)
  · exact exec_eq_stopped_of_bad_register (by show _ + 1 ≤ 255; omega) (by simp [firstBad, Instr.regOperands, h])

/-- Settles O23: a reader's data effect leaves registers and memory, and one that ends in memory takes no fault. -/
theorem frameOfReaders : Obligations.FrameOfReaders := by
  intro i s t hi h
  have hkeep : i.wellFormed = true → s.pc.toNat ≤ 252 → t.fault = s.fault ∧ t.fsm = s.fsm := fun hw hp =>
    exec_keeps_fault_fsm h (fun hh => by simp [hh] at hi) hw (by have := Handler.length_le_three i.handler; omega)
  obtain ⟨hregs, hmem⟩ := effectOf_reader hi s
  obtain hs | hs := exec_sameData h
  · exact ⟨fun j => by rw [hs.regs], fun a => by rw [hs.mem], fun _ => hs.flags, fun _ => hs.out, hs.hostIn, hkeep⟩
  · exact ⟨fun j => by rw [hs.regs, hregs], fun a => by rw [hs.mem, hmem],
      fun hc => hs.flags.trans (effectOf_flags hc s), fun ho => hs.out.trans (effectOf_out ho s),
      hs.hostIn.trans (effectOf_hostIn i s), hkeep⟩

/-- Settles O46: no other data effect emits, and neither does a reset, a Halted core or a fault. -/
theorem onlyPrintRegisterEmits : Obligations.OnlyPrintRegisterEmits := by
  refine ⟨fun i s t h hne => by_contra fun hi => hne ?_, fun P s t h hne => ?_⟩
  · obtain hs | hs := exec_sameData h
    · exact hs.out
    · exact hs.out.trans (effectOf_out hi s)
  · obtain ⟨_, he⟩ | ⟨_, _, he⟩ | ⟨_, hrun, he⟩ := stepWith_cases P s <;> rw [he] at h
    · cases h
      exact absurd rfl hne
    · cases h
      rw [haltedStep_eq] at hne
      exact absurd rfl hne
    · exact ⟨hrun, opcodeByte_of_runStep_emits (s := s.dropPins) h hne⟩

/-- Settles O9: HALT has no operand to check, so its meaning is `State.halt` at every address. -/
theorem haltStopsAndClearsPc : Obligations.HaltStopsAndClearsPc :=
  ⟨fun _ => rfl, rfl, fun _ => rfl⟩

/-- Settles O26: the next state is `State.halt`, which leaves the data and FAULT. -/
theorem frameOfHalt : Obligations.FrameOfHalt := by
  intro s t h
  obtain rfl : s.halt = t := Host.Outcome.next.inj h
  have hs := sameData_halt s
  exact ⟨fun j => by rw [hs.regs], hs.flags, fun a => by rw [hs.mem], hs.out, s.halt_fault, hs.hostIn⟩

end Sys2Proof.Machine
end

section
/-! The register load: LOAD_IMMEDIATE (O11), the frame it shares with MULTIPLY (O22), and LOAD_IMMEDIATE followed by
PRINT_REGISTER (O51). -/

namespace Sys2Proof.Machine

open Sys2Proof.Claim

/-- LOAD_IMMEDIATE is well-formed when its first operand names a register; the immediate is never checked (R81, R110). -/
theorem wellFormed_loadImmediate {reg : Byte} (value : Byte) (h : reg.toNat < 8) :
    (Instr.loadImmediate reg value).wellFormed = true := by
  simp [Instr.wellFormed, Instr.regOperands, regOperandOk_of_lt h]

/-- LOAD_IMMEDIATE's data effect: the immediate is in the register its operand names (R110). -/
theorem effectOf_loadImmediate {reg : Byte} (value : Byte) (h : reg.toNat < 8) (s : State) :
    effectOf (.loadImmediate reg value) s = { s with regs := s.regs.set reg.toNat value } := by
  rw [effectOf, regOf_eq h]
  rfl

/-- A LOAD_IMMEDIATE that ends below the top of memory: the register written, and `pc` three further (R27, R110). -/
theorem exec_loadImmediate_of_le {reg : Byte} (value : Byte) {s : State} (h : reg.toNat < 8) (hp : s.pc.toNat ≤ 252) :
    exec (.loadImmediate reg value) s = .next { s with regs := s.regs.set reg.toNat value, pc := s.pc + 3 } := by
  rw [exec_eq_effectOf_of_le (wellFormed_loadImmediate value h) trivial (by show _ + 3 ≤ 255; omega),
    effectOf_loadImmediate value h]
  rfl

/-- Settles O11: one lemma per outcome of the checks and of the advance, with `effectOf_loadImmediate`. -/
theorem loadImmediateWritesTheConstant : Obligations.LoadImmediateWritesTheConstant := by
  refine ⟨fun _ _ _ => rfl, rfl, fun reg value s => ⟨fun h hp => ?_, fun h hp => ?_, fun hp => ?_, fun hp h => ?_⟩⟩
  · exact exec_loadImmediate_of_le value h hp
  · rw [exec_eq_stopped_effectOf_of_top (wellFormed_loadImmediate value h) trivial (by show _ + 3 = 256; omega),
      effectOf_loadImmediate value h]
  · exact exec_eq_stopped_of_operand_past (by show 255 < _ + 2; omega)
  · exact exec_eq_stopped_of_bad_register (by show _ + 2 ≤ 255; omega) (by simp [firstBad, Instr.regOperands, h])

/-- An instruction that changes more than `pc`, the FSM state and the fault record has passed its register checks and
has its data effect (R82, R153). -/
theorem exec_sameData_or_wellFormed {i : Instr} {s t : State} (h : exec i s = .next t) :
    SameData s t ∨ (i.wellFormed = true ∧ SameData (effectOf i s) t) := by
  obtain ⟨_, he⟩ | ⟨_, b, _, he⟩ | ⟨_, hw, he⟩ := exec_cases i s <;> rw [he] at h <;> cases h
  · exact .inl (sameData_raise s _ _ _)
  · exact .inl (sameData_raise s _ _ _)
  · exact (bodyOf_sameData i s).imp_right fun hs => ⟨hw, hs⟩

/-- `i` writes the register its operand `dst` names and no other: LOAD_IMMEDIATE or MULTIPLY (R110, R120). -/
def WritesRegister (i : Instr) (dst : Byte) : Prop := (∃ v, i = .loadImmediate dst v) ∨ (∃ b, i = .multiply dst b)

/-- The data effect of LOAD_IMMEDIATE and MULTIPLY is one register write (R110, R120). -/
theorem WritesRegister.effectOf_eq {i : Instr} {dst : Byte} (hi : WritesRegister i dst) (s : State) :
    ∃ v, effectOf i s = s.setReg (regOf dst) v := by
  obtain ⟨v, rfl⟩ | ⟨b, rfl⟩ := hi
  · exact ⟨_, rfl⟩
  · exact ⟨_, rfl⟩

/-- The destination of a well-formed LOAD_IMMEDIATE or MULTIPLY is a register (R22, R81). -/
theorem WritesRegister.lt_of_wellFormed {i : Instr} {dst : Byte} (hi : WritesRegister i dst)
    (hw : i.wellFormed = true) : dst.toNat < 8 := by
  have hdst : dst ∈ i.regOperands := by
    obtain ⟨v, rfl⟩ | ⟨b, rfl⟩ := hi <;> exact List.mem_cons_self
  exact Nat.lt_succ_of_le (of_decide_eq_true (List.all_eq_true.mp hw dst hdst))

theorem WritesRegister.handler_ne_halt {i : Instr} {dst : Byte} (hi : WritesRegister i dst) : i.handler ≠ .halt := by
  obtain ⟨v, rfl⟩ | ⟨b, rfl⟩ := hi <;> exact Handler.noConfusion

/-- Settles O22: a fault leaves the data, and otherwise the data effect is one write, to a register that exists. -/
theorem frameOfRegisterWriters : Obligations.FrameOfRegisterWriters := by
  intro i dst s t hi h
  replace hi : WritesRegister i dst := hi
  have hkeep : i.wellFormed = true → s.pc.toNat ≤ 252 → t.fault = s.fault ∧ t.fsm = s.fsm := fun hw hp =>
    exec_keeps_fault_fsm h hi.handler_ne_halt hw (by have := Handler.length_le_three i.handler; omega)
  obtain hs | ⟨hw, hs⟩ := exec_sameData_or_wellFormed h
  · exact ⟨fun j _ => by rw [hs.regs], hs.flags, fun a => by rw [hs.mem], hs.out, hs.hostIn, hkeep⟩
  · obtain ⟨v, he⟩ := hi.effectOf_eq s
    rw [he, regOf_eq (hi.lt_of_wellFormed hw)] at hs
    refine ⟨fun j hj => ?_, hs.flags, fun a => by rw [hs.mem]; rfl, hs.out, hs.hostIn, hkeep⟩
    calc t.reg j = _ := State.reg_of_regs hs.regs j
      _ = s.reg j := by rw [State.reg_setReg, if_neg fun hj' => hj (congrArg Fin.val hj')]

/-- A PRINT_REGISTER that ends below the top of memory: the first outcome of O10 (R103). -/
theorem exec_printRegister_of_le {reg : Byte} {s : State} (h : reg.toNat < 8) (hp : s.pc.toNat ≤ 253) :
    exec (.printRegister reg) s = .next { s with out := s.out ++ [s.regs[reg.toNat]], pc := s.pc + 2 } := by
  obtain ⟨_, _, houtcomes⟩ := printRegisterEmitsTheRegister
  obtain ⟨hemits, _⟩ := houtcomes reg s
  exact hemits h hp

/-- Settles O51: the exact results of the two instructions, and the byte set in the register file is the byte read. -/
theorem loadThenPrintEmitsTheValue : Obligations.LoadThenPrintEmitsTheValue := by
  intro P s reg v hm hr hp hrun hno hload hprint
  obtain ⟨hrst, hno⟩ := hno.of_succ
  obtain ⟨hrst', _⟩ := hno.of_succ
  have hs := (stepWith_of_at hm ⟨hrun, hrst⟩ hload).trans
    (exec_loadImmediate_of_le v (s := s.dropPins) hr (by rw [State.dropPins_pc]; omega))
  generalize ht : { s.dropPins with regs := s.dropPins.regs.set reg.toNat v, pc := s.dropPins.pc + 3 } = t at hs
  have hx : Executes t := by rw [← ht]; exact ⟨hrun, hrst'⟩
  have hat : At P.opcodes (.printRegister reg) t := by rw [← ht]; exact hprint
  have hpc : t.pc.toNat ≤ 253 := by rw [← ht]; show (s.pc + 3).toNat ≤ 253; simp; omega
  have hu := (stepWith_of_at hm hx hat).trans (exec_printRegister_of_le (s := t.dropPins) hr hpc)
  refine ⟨_, (runFor_succ 1 hs).trans (runFor_succ 0 hu), ?_⟩
  rw [← ht]
  simp

end Sys2Proof.Machine
end

section
/-! The ALU instructions: MULTIPLY (O12), COMPARE (O13), and the COMPARE of the same values a second time (O53). -/

namespace Sys2Proof.Machine

open Sys2Proof.Claim

/-! ### Two register operands -/

/-- Two register operands below 8 make a well-formed instruction (R22, R81). -/
theorem wellFormed_of_two_registers {i : Instr} {a b : Byte} (hi : i.regOperands = [a, b]) (hA : a.toNat < 8)
    (hB : b.toNat < 8) : i.wellFormed = true := by
  simp [Instr.wellFormed, hi, regOperandOk_of_lt hA, regOperandOk_of_lt hB]

/-- The exceptions of an instruction with two register operands: an operand byte past address 255, a bad first
register, else a bad second one; none has any effect (R82, R151, R152). -/
theorem exec_two_registers_exceptions {i : Instr} {a b : Byte} (hi : i.regOperands = [a, b])
    (hcount : i.handler.operandCount = 2) (s : State) :
    (254 ≤ s.pc.toNat → exec i s = .next (stopped s .oobMemoryOperand 256 (s.readByte s.pc))) ∧
    (s.pc.toNat ≤ 253 → 7 < a.toNat →
      exec i s = .next (stopped s .oobRegister (a.setWidth 9) (s.readByte s.pc))) ∧
    (s.pc.toNat ≤ 253 → a.toNat ≤ 7 → 7 < b.toNat →
      exec i s = .next (stopped s .oobRegister (b.setWidth 9) (s.readByte s.pc))) := by
  refine ⟨fun hp => ?_, fun hp hA => ?_, fun hp hA hB => ?_⟩
  · exact exec_eq_stopped_of_operand_past (by omega)
  · exact exec_eq_stopped_of_bad_register (by omega) (by simp [firstBad, hi, hA])
  · exact exec_eq_stopped_of_bad_register (by omega) (by simp [firstBad, hi, hA, hB])

/-! ### MULTIPLY -/

/-- The ALU's product is the byte whose value is the product modulo 256 (R121). -/
theorem mulByte_eq {a b v : Byte} (hv : v.toNat = a.toNat * b.toNat % 256) : mulByte a b = v :=
  BitVec.eq_of_toNat_eq ((mulByte_toNat a b).trans hv.symm)

/-- MULTIPLY's data effect: the ALU's product is in the register its first operand names (R120). -/
theorem effectOf_multiply {regA regB : Byte} (hA : regA.toNat < 8) (hB : regB.toNat < 8) (s : State) :
    effectOf (.multiply regA regB) s =
      { s with regs := s.regs.set regA.toNat (mulByte s.regs[regA.toNat] s.regs[regB.toNat]) } := by
  rw [effectOf, regOf_eq hA, regOf_eq hB]
  rfl

/-- Settles O12: `effectOf_multiply` with the exact result of either advance, and the two operands' exceptions. -/
theorem multiplyWritesTheLowByteOfTheProduct : Obligations.MultiplyWritesTheLowByteOfTheProduct := by
  refine ⟨fun _ _ _ => rfl, rfl, fun regA regB s =>
    ⟨fun hA hB v hv => ?_, exec_two_registers_exceptions rfl rfl s⟩⟩
  have hw : (Instr.multiply regA regB).wellFormed = true := wellFormed_of_two_registers rfl hA hB
  rw [← mulByte_eq hv, ← effectOf_multiply hA hB]
  refine ⟨fun hp => ?_, fun hp => ?_⟩
  · rw [exec_eq_effectOf_of_le hw trivial (by show _ + 3 ≤ 255; omega), effectOf_multiply hA hB]
    rfl
  · exact exec_eq_stopped_effectOf_of_top hw trivial (by show _ + 3 = 256; omega)

/-! ### COMPARE -/

/-- COMPARE is well-formed when both operands name registers (R22, R81). -/
theorem wellFormed_compare {regA regB : Byte} (hA : regA.toNat < 8) (hB : regB.toNat < 8) :
    (Instr.compare regA regB).wellFormed = true :=
  wellFormed_of_two_registers rfl hA hB

/-- COMPARE's data effect: the flags are those of the unsigned order of the two registers (R122). -/
theorem effectOf_compare {regA regB : Byte} (hA : regA.toNat < 8) (hB : regB.toNat < 8) (s : State) :
    effectOf (.compare regA regB) s =
      { s with flags := compareFlags s.regs[regA.toNat] s.regs[regB.toNat] } := by
  rw [effectOf, regOf_eq hA, regOf_eq hB]
  rfl

/-- A COMPARE that ends below the top of memory: the flags written, and `pc` three further (R27, R122). -/
theorem exec_compare_of_le {regA regB : Byte} {s : State} (hA : regA.toNat < 8) (hB : regB.toNat < 8)
    (hp : s.pc.toNat ≤ 252) :
    exec (.compare regA regB) s =
      .next { s with flags := compareFlags s.regs[regA.toNat] s.regs[regB.toNat], pc := s.pc + 3 } := by
  rw [exec_eq_effectOf_of_le (wellFormed_compare hA hB) trivial (by show _ + 3 ≤ 255; omega),
    effectOf_compare hA hB]
  rfl

/-- Settles O13: flags that follow the unsigned order are `compareFlags`, of which exactly one is set. -/
theorem compareSetsTheFlagOfTheUnsignedOrder : Obligations.CompareSetsTheFlagOfTheUnsignedOrder := by
  refine ⟨fun _ _ _ => rfl, rfl, fun regA regB s =>
    ⟨fun hA hB f hg he hl => ?_, exec_two_registers_exceptions rfl rfl s⟩⟩
  obtain rfl := compareFlags_eq hg he hl
  refine ⟨compareFlags_exactlyOne _ _, exec_compare_of_le hA hB, fun hp => ?_⟩
  rw [exec_eq_stopped_effectOf_of_top (wellFormed_compare hA hB) trivial (by show _ + 3 = 256; omega),
    effectOf_compare hA hB]

/-- Settles O53: the flags COMPARE leaves are a function of the two registers alone. -/
theorem compareIsIdempotent : Obligations.CompareIsIdempotent := by
  intro s t' regA regB hA hB hp hp' heqA heqB
  refine ⟨_, _, exec_compare_of_le hA hB hp, exec_compare_of_le hA hB hp', ?_, compareFlags_exactlyOne _ _, rfl⟩
  show compareFlags t'.regs[regA.toNat] t'.regs[regB.toNat] = _
  rw [heqA, heqB]

end Sys2Proof.Machine
end

section
/-! The control transfers: JUMP (O14), JUMP_IF_EQUAL (O15), JUMP_IF_NOT_EQUAL (O16), the hang of a JUMP to its own
address (O50), and the conditional jumps after a COMPARE (O54). -/

namespace Sys2Proof.Machine

open Sys2Proof.Claim

/-! ### One register operand -/

/-- One register operand below 8 makes a well-formed instruction (R22, R81). -/
theorem wellFormed_of_one_register {i : Instr} {reg : Byte} (hi : i.regOperands = [reg]) (h : reg.toNat < 8) :
    i.wellFormed = true := by
  simp [Instr.wellFormed, hi, regOperandOk_of_lt h]

/-- The exceptions of an instruction with one operand, a register: an operand byte past address 255, or a bad register;
neither has any effect (R82, R151, R152). -/
theorem exec_one_register_exceptions {i : Instr} {reg : Byte} (hi : i.regOperands = [reg])
    (hcount : i.handler.operandCount = 1) (s : State) :
    (s.pc.toNat = 255 → exec i s = .next (stopped s .oobMemoryOperand 256 (s.readByte s.pc))) ∧
    (s.pc.toNat ≤ 254 → 7 < reg.toNat →
      exec i s = .next (stopped s .oobRegister (reg.setWidth 9) (s.readByte s.pc))) := by
  refine ⟨fun hp => ?_, fun hp hr => ?_⟩
  · exact exec_eq_stopped_of_operand_past (by omega)
  · exact exec_eq_stopped_of_bad_register (by omega) (by simp [firstBad, hi, hr])

/-- A taken branch assigns the register to `pc` and changes nothing else, at every address where its operand is in
memory (R28). -/
theorem exec_of_branch {i : Instr} {reg : Byte} {s : State} (hi : i.regOperands = [reg])
    (hcount : i.handler.operandCount = 1) (hb : bodyOf i s = s.branch (s.reg (regOf reg))) (h : reg.toNat < 8)
    (hp : s.pc.toNat ≤ 254) : exec i s = .next { s with pc := s.regs[reg.toNat] } := by
  rw [exec_of_ok (by omega) (wellFormed_of_one_register hi h), hb, regOf_eq h]
  rfl

/-! ### JUMP -/

/-- JUMP branches in every state (R130). -/
theorem exec_jump {reg : Byte} {s : State} (h : reg.toNat < 8) (hp : s.pc.toNat ≤ 254) :
    exec (.jump reg) s = .next { s with pc := s.regs[reg.toNat] } :=
  exec_of_branch rfl rfl rfl h hp

/-- The executed step of a JUMP that stands at `pc` (R130, R174). -/
theorem stepWith_of_at_jump {P : Params} (hm : P.opcodes.Injective) {reg : Byte} {s : State} (h : reg.toNat < 8)
    (hx : Executes s) (hat : At P.opcodes (.jump reg) s) :
    stepWith P s = .next { s.dropPins with pc := s.regs[reg.toNat] } :=
  (stepWith_of_at hm hx hat).trans (exec_jump (s := s.dropPins) h (Nat.le_of_succ_le_succ hat.1))

/-- Settles O14: JUMP's body is the branch, and the step after it fetches at the target. -/
theorem jumpAssignsTheProgramCounter : Obligations.JumpAssignsTheProgramCounter := by
  refine ⟨fun _ _ => rfl, rfl, fun reg s => ?_⟩
  obtain ⟨hpast, hbad⟩ := exec_one_register_exceptions (i := .jump reg) rfl rfl s
  refine ⟨exec_jump, hpast, hbad, fun h hp hself => ?_, fun P h hm hx hat hrst hno => ?_⟩
  · rw [exec_jump h hp, hself]
  · refine ⟨_, stepWith_of_at_jump hm h hx hat, rfl, ?_⟩
    exact stepWith_of_no_opcode P (s := { s.dropPins with pc := s.regs[reg.toNat] }) ⟨hx.1, hrst⟩ hno

/-! ### The conditional jumps -/

/-- JUMP_IF_EQUAL branches when E is 1 (R131). -/
theorem exec_jumpIfEqual_taken {reg : Byte} {s : State} (h : reg.toNat < 8) (hp : s.pc.toNat ≤ 254)
    (he : s.flags.e = true) : exec (.jumpIfEqual reg) s = .next { s with pc := s.regs[reg.toNat] } :=
  exec_of_branch (i := .jumpIfEqual reg) rfl rfl (if_pos he) h hp

/-- JUMP_IF_NOT_EQUAL branches when E is 0 (R133). -/
theorem exec_jumpIfNotEqual_taken {reg : Byte} {s : State} (h : reg.toNat < 8) (hp : s.pc.toNat ≤ 254)
    (he : s.flags.e = false) : exec (.jumpIfNotEqual reg) s = .next { s with pc := s.regs[reg.toNat] } :=
  exec_of_branch (i := .jumpIfNotEqual reg) rfl rfl (if_pos he) h hp

/-- A conditional jump that is not taken only advances by its two bytes, and faults where that leaves memory (R27, R131,
R133). -/
theorem exec_of_not_taken {i : Instr} {reg : Byte} {s : State} (hi : i.regOperands = [reg])
    (hlen : i.handler.length = 2) (heff : effectOf i s = s) (ha : Advances i s) (h : reg.toNat < 8) :
    (s.pc.toNat ≤ 253 → exec i s = .next { s with pc := s.pc + 2 }) ∧
    (s.pc.toNat = 254 → exec i s = .next (stopped s .oobMemoryFetch 256 (s.readByte s.pc))) := by
  have hw := wellFormed_of_one_register hi h
  refine ⟨fun hp => ?_, fun hp => ?_⟩
  · rw [exec_eq_effectOf_of_le hw ha (by omega), heff, hlen]
    rfl
  · rw [exec_eq_stopped_effectOf_of_top hw ha (by omega), heff]

/-- Settles O15: E selects the branch or the advance, after the checks of the operand. -/
theorem jumpIfEqualBranchesOnTheEqualFlag : Obligations.JumpIfEqualBranchesOnTheEqualFlag := by
  refine ⟨fun _ _ => rfl, rfl, fun reg s => ?_⟩
  have hnot (h : reg.toNat < 8) (he : s.flags.e = false) :=
    exec_of_not_taken (i := .jumpIfEqual reg) (s := s) rfl rfl rfl he h
  exact ⟨exec_jumpIfEqual_taken, fun h hp he => (hnot h he).1 hp, fun h hp he => (hnot h he).2 hp,
    exec_one_register_exceptions rfl rfl s⟩

/-- Settles O16: as O15 with the two values of E exchanged; a branch to `pc` itself changes nothing. -/
theorem jumpIfNotEqualBranchesOnTheClearFlag : Obligations.JumpIfNotEqualBranchesOnTheClearFlag := by
  refine ⟨fun _ _ => rfl, rfl, fun reg s => ?_⟩
  have hnot (h : reg.toNat < 8) (he : s.flags.e = true) :=
    exec_of_not_taken (i := .jumpIfNotEqual reg) (s := s) rfl rfl rfl he h
  obtain ⟨hpast, hbad⟩ := exec_one_register_exceptions (i := .jumpIfNotEqual reg) rfl rfl s
  refine ⟨exec_jumpIfNotEqual_taken, fun h hp he => (hnot h he).1 hp, fun h hp he => (hnot h he).2 hp, hpast, hbad,
    fun h hp he hself => ?_⟩
  rw [exec_jumpIfNotEqual_taken h hp he, hself]

/-! ### The hang of a JUMP to its own address -/

/-- Where no coming input asserts reset, the next step's does not, whether or not an input is left. -/
theorem State.nextPins_rst_of_forall {s : State} (h : ∀ p ∈ s.hostIn, p.rst = false) : s.nextPins.rst = false := by
  unfold State.nextPins
  cases hs : s.hostIn with
  | nil => rfl
  | cons p ps => exact h p (hs ▸ List.mem_cons_self)

/-- `n` steps of a JUMP to its own address only take the host's inputs (R130). -/
theorem runFor_jump_self {P : Params} (hm : P.opcodes.Injective) {reg : Byte} (h : reg.toNat < 8) (n : Nat) {s : State}
    (hrun : s.fsm = .running) (hat : At P.opcodes (.jump reg) s) (hself : s.regs[reg.toNat] = s.pc)
    (hno : ∀ p ∈ s.hostIn, p.rst = false) : runFor P n s = .next { s with hostIn := s.hostIn.drop n } := by
  induction n generalizing s with
  | zero => rfl
  | succ n ih =>
    have hstep : stepWith P s = .next s.dropPins := by
      rw [stepWith_of_at_jump hm h ⟨hrun, State.nextPins_rst_of_forall hno⟩ hat, hself]
      rfl
    rw [runFor_succ n hstep, ih (s := s.dropPins) hrun hat hself fun p hp => hno p (List.mem_of_mem_tail hp),
      State.dropPins_hostIn, List.drop_tail]
    rfl

/-- Settles O50: the state after `n` steps is known, and it is Running. -/
theorem jumpToItselfHangs : Obligations.JumpToItselfHangs := by
  intro P s reg h hm hrun hat hself hno
  have hloop (n : Nat) := runFor_jump_self hm h n hrun hat hself hno
  exact ⟨fun n => ⟨_, hloop n, hrun⟩, hloop⟩

/-! ### The conditional jumps after a COMPARE -/

/-- A list of instructions executes when its first one does and the others do after it. -/
theorem execAll_cons_eq_some {i : Instr} {is : List Instr} {s v : State} (h : execAll (i :: is) s = some v) :
    ∃ t, exec i s = .next t ∧ execAll is t = some v := by
  rw [execAll] at h
  split at h
  case h_1 t ht => exact ⟨t, ht, h⟩
  case h_2 => cases h

/-- Instructions other than COMPARE leave the flags (R29). -/
theorem execAll_flags {is : List Instr} (his : ∀ i ∈ is, i.handler ≠ .compare) {s v : State}
    (h : execAll is s = some v) : v.flags = s.flags := by
  induction is generalizing s with
  | nil => cases h; rfl
  | cons i is ih =>
    obtain ⟨t, ht, hv⟩ := execAll_cons_eq_some h
    obtain ⟨hflags, _⟩ := onlyCompareWritesFlags i s t ht
    calc v.flags = t.flags := ih (fun j hj => his j (List.mem_cons_of_mem i hj)) hv
      _ = s.flags := hflags (his i List.mem_cons_self)

/-- COMPARE leaves E equal to whether its registers are, whatever becomes of its advance (R122, R157). -/
theorem exec_compare_flags_e {regA regB : Byte} {s t : State} (hA : regA.toNat < 8) (hB : regB.toNat < 8)
    (hp : s.pc.toNat ≤ 253) (h : exec (.compare regA regB) s = .next t) :
    t.flags.e = decide (s.regs[regA.toNat] = s.regs[regB.toNat]) := by
  rw [exec_of_ok (by show _ + 2 ≤ 255; omega) (wellFormed_compare hA hB)] at h
  cases h
  rw [bodyOf_of_advances (i := .compare regA regB) trivial, effectOf_compare hA hB, State.advance_flags]
  exact compareFlags_equal _ _

/-- Both conditional jumps as a choice on E, where neither outcome leaves memory (R131, R133). -/
theorem exec_conditional_jumps {reg : Byte} (h : reg.toNat < 8) {v : State} (hp : v.pc.toNat ≤ 253) :
    exec (.jumpIfEqual reg) v = .next { v with pc := if v.flags.e then v.regs[reg.toNat] else v.pc + 2 } ∧
    exec (.jumpIfNotEqual reg) v = .next { v with pc := if v.flags.e then v.pc + 2 else v.regs[reg.toNat] } := by
  cases he : v.flags.e with
  | true =>
    exact ⟨exec_jumpIfEqual_taken h (by omega) he, (exec_of_not_taken (i := .jumpIfNotEqual reg) rfl rfl rfl he h).1 hp⟩
  | false =>
    exact ⟨(exec_of_not_taken (i := .jumpIfEqual reg) rfl rfl rfl he h).1 hp, exec_jumpIfNotEqual_taken h (by omega) he⟩

/-- Settles O54: E is still what the last COMPARE, or reset, left. -/
theorem conditionalJumpsFollowTheLastCompare : Obligations.ConditionalJumpsFollowTheLastCompare := by
  intro is reg h his
  refine ⟨fun s v regA regB hA hB hp hv hvp => ?_, fun v hv hvp => ?_⟩
  · obtain ⟨t, ht, hv⟩ := execAll_cons_eq_some hv
    have he : v.flags.e = decide (s.regs[regA.toNat] = s.regs[regB.toNat]) := by
      rw [execAll_flags his hv, exec_compare_flags_e hA hB hp ht]
    simpa [he] using exec_conditional_jumps h hvp
  · have he : v.flags.e = false := by rw [execAll_flags his hv]; rfl
    simpa [he] using exec_conditional_jumps h hvp

end Sys2Proof.Machine
end

section
/-! The stack: PUSH (O17, O24), POP (O18, O25), SP as their operand (O19), and a PUSH undone by a POP (O52). -/

namespace Sys2Proof.Machine

open Sys2Proof.Claim

/-! ### The exact results -/

/-- A two-byte instruction with one register operand that advances: its data effect and `pc` two further, or the fault of
the advance where that leaves memory (R27, R152). -/
theorem exec_one_register_advances {i : Instr} {reg : Byte} {s : State} (hi : i.regOperands = [reg])
    (hlen : i.handler.length = 2) (ha : Advances i s) (h : reg.toNat < 8) :
    (s.pc.toNat ≤ 253 → exec i s = .next { effectOf i s with pc := s.pc + 2 }) ∧
    (s.pc.toNat = 254 → exec i s = .next (stopped (effectOf i s) .oobMemoryFetch 256 (s.readByte s.pc))) := by
  have hw := wellFormed_of_one_register hi h
  refine ⟨fun hp => ?_, fun hp => ?_⟩
  · rw [exec_eq_effectOf_of_le hw ha (by omega), hlen]
    rfl
  · exact exec_eq_stopped_effectOf_of_top hw ha (by omega)

/-- PUSH's data effect: its data part, with the register its operand names as it was before SP changes (R140, R145). -/
theorem effectOf_push {reg : Byte} (h : reg.toNat < 8) (s : State) :
    effectOf (.push reg) s = s.pushByte s.regs[reg.toNat] := by
  rw [effectOf, regOf_eq h]
  rfl

/-- POP's data effect: its data part, into the register its operand names (R142). -/
theorem effectOf_pop {reg : Byte} (h : reg.toNat < 8) (s : State) :
    effectOf (.pop reg) s = s.popInto ⟨reg.toNat, h⟩ := by
  rw [effectOf, regOf_eq h]

/-- A POP that ends below the top of memory: its data part, and `pc` two further (R27, R142). -/
theorem exec_pop_of_le {s : State} {reg : Byte} (h : reg.toNat < 8) (hp : s.pc.toNat ≤ 253) :
    exec (.pop reg) s = .next { s.popInto ⟨reg.toNat, h⟩ with pc := s.pc + 2 } := by
  obtain ⟨hle, _⟩ := exec_one_register_advances (i := .pop reg) (s := s) rfl rfl trivial h
  rw [hle hp, effectOf_pop h]

/-- Settles O17: both ends of the advance carry `pushByte`, and the exceptions are those of one register operand. -/
theorem pushDecrementsAndStores : Obligations.PushDecrementsAndStores := by
  refine ⟨fun _ _ => rfl, rfl, fun reg s => ⟨fun h hp => exec_push_of_le h hp, fun h hp => ?_,
    exec_one_register_exceptions rfl rfl s⟩⟩
  obtain ⟨_, htop⟩ := exec_one_register_advances (i := .push reg) (s := s) rfl rfl trivial h
  rw [htop hp, effectOf_push h]
  rfl

/-- Settles O18: both ends of the advance carry `popInto`, and the exceptions are those of one register operand. -/
theorem popLoadsAndIncrements : Obligations.PopLoadsAndIncrements := by
  refine ⟨fun _ _ => rfl, rfl, fun reg s => ⟨fun h hp => exec_pop_of_le h hp, fun h hp => ?_,
    exec_one_register_exceptions rfl rfl s⟩⟩
  obtain ⟨_, htop⟩ := exec_one_register_advances (i := .pop reg) (s := s) rfl rfl trivial h
  rw [htop hp, effectOf_pop h]
  rfl

/-- Settles O19: PUSH reads its operand before SP changes, and POP writes its destination after it. -/
theorem stackPointerAsStackOperand : Obligations.StackPointerAsStackOperand := by
  intro s hp
  obtain ⟨hsp, hbyte, _⟩ := s.pushByte_spec s.regs[7]
  obtain ⟨hdst, _⟩ := s.popInto_spec spIndex
  exact ⟨⟨_, exec_push_of_le (by decide) hp, hbyte, hsp⟩, _, exec_pop_of_le (by decide) hp, hdst⟩

/-! ### The frames -/

/-- Every register operand of a well-formed instruction names a register (R22, R81). -/
theorem toNat_lt_of_wellFormed {i : Instr} {reg : Byte} (hw : i.wellFormed = true) (hreg : reg ∈ i.regOperands) :
    reg.toNat < 8 :=
  Nat.lt_succ_of_le (of_decide_eq_true (List.all_eq_true.mp hw reg hreg))

/-- A two-byte instruction with one register operand, which HALT is not, leaves FAULT and the FSM state where its operand
names a register and it ends below the top of memory (R72, R153). -/
theorem exec_one_register_keeps_fault_fsm {i : Instr} {reg : Byte} {s t : State} (hi : i.regOperands = [reg])
    (hlen : i.handler.length = 2) (h : exec i s = .next t) :
    reg.toNat < 8 → s.pc.toNat ≤ 253 → t.fault = s.fault ∧ t.fsm = s.fsm := fun hr hp =>
  exec_keeps_fault_fsm h (fun hh => by simp [hh, Handler.length, Handler.operandCount] at hlen)
    (wellFormed_of_one_register hi hr) (by omega)

/-- Settles O24: a fault of the checks leaves the data, and `pushByte` writes SP and the byte at SP - 1. -/
theorem frameOfPush : Obligations.FrameOfPush := by
  intro reg s t h
  have hkeep := exec_one_register_keeps_fault_fsm rfl rfl h
  obtain hs | hs := exec_sameData h
  · exact ⟨fun j _ => by rw [hs.regs], hs.flags, fun a _ => by rw [hs.mem], hs.out, hs.hostIn, hkeep⟩
  · obtain ⟨_, _, hother, _⟩ := s.pushByte_spec (s.reg (regOf reg))
    refine ⟨fun j hj => (State.reg_of_regs hs.regs j).trans (hother j hj), hs.flags, fun a ha => ?_, hs.out, hs.hostIn,
      hkeep⟩
    rw [hs.mem]
    exact Memory.read_write_other _ _ ha

/-- Settles O25: a fault of the checks leaves the data, and `popInto` writes SP and a destination that exists. -/
theorem frameOfPop : Obligations.FrameOfPop := by
  intro reg s t h
  have hkeep := exec_one_register_keeps_fault_fsm rfl rfl h
  obtain hs | ⟨hw, hs⟩ := exec_sameData_or_wellFormed h
  · exact ⟨fun j _ _ => by rw [hs.regs], hs.flags, fun a => by rw [hs.mem], hs.out, hs.hostIn, hkeep⟩
  · have hr : reg.toNat < 8 := toNat_lt_of_wellFormed hw List.mem_cons_self
    rw [effectOf_pop hr] at hs
    obtain ⟨_, _, hother, hmem⟩ := s.popInto_spec ⟨reg.toNat, hr⟩
    exact ⟨fun j hsp hj => (State.reg_of_regs hs.regs j).trans (hother j hsp fun he => hj (congrArg Fin.val he)),
      hs.flags, fun a => by rw [hs.mem, hmem], hs.out, hs.hostIn, hkeep⟩

/-! ### A PUSH and a POP -/

/-- Settles O52: POP reads the byte PUSH stored at the SP it left, and increments that SP back. -/
theorem pushThenPopRestores : Obligations.PushThenPopRestores := by
  intro s r r' h h' hp
  obtain ⟨hsp, hbyte, _⟩ := s.pushByte_spec s.regs[r.toNat]
  refine ⟨_, exec_push_of_le h hp, fun t' hsp' hbyte' hp' => ?_⟩
  rw [← hsp'] at hbyte'
  replace hsp' : t'.sp = s.sp - 1 := hsp'.trans hsp
  have hread : t'.readByte t'.sp = s.regs[r.toNat] := hbyte'.trans (by rw [hsp']; exact hbyte)
  obtain ⟨hdst, hinc, _⟩ := t'.popInto_spec ⟨r'.toNat, h'⟩
  refine ⟨_, exec_pop_of_le h' hp', hdst.trans hread, fun h7 => ?_⟩
  calc _ = t'.sp + 1 := hinc fun he => h7 (congrArg Fin.val he)
    _ = s.sp := by rw [hsp', BitVec.sub_add_cancel]

end Sys2Proof.Machine
end

section
/-! The faults: DECODE_ERROR (O8), OOB_REGISTER (O27), the two OOB_MEMORY kinds (O28), their order (O31), what their
entry leaves (O30), and a recorded fault until reset (O32). -/

namespace Sys2Proof.Machine

open Sys2Proof.Claim

/-! ### The bytes that are no opcode -/

/-- The lookup answers with a handler exactly on the bytes that are some handler's (R80). -/
theorem decodeOp_isSome_iff {m : OpcodeMap} {op : Byte} :
    (decodeOp m op).isSome = true ↔ ∃ g : Handler, m.byteOf g = op := by
  rw [Option.isSome_iff_ne_none, ne_eq, decodeOp_eq_none_iff]
  simp

/-- Under an injective map the bytes that decode to a handler are the ten opcodes (R78, R80). -/
theorem filter_decodeOp_isSome_perm {m : OpcodeMap} (hm : m.Injective) :
    ((List.range 256).filter fun n => (decodeOp m (BitVec.ofNat 8 n)).isSome).Perm
      (Handler.all.map fun g => (m.byteOf g).toNat) := by
  have hinj : Function.Injective fun g => (m.byteOf g).toNat := fun g g' h => hm g g' (BitVec.eq_of_toNat_eq h)
  have hall : (Handler.all.map fun g => (m.byteOf g).toNat).Nodup :=
    (show Handler.all.Nodup by decide).map hinj
  refine (List.perm_ext_iff_of_nodup (List.nodup_range.filter _) hall).mpr fun n => ?_
  rw [List.mem_filter, List.mem_range, decodeOp_isSome_iff, List.mem_map]
  constructor
  · rintro ⟨hn, g, hg⟩
    exact ⟨g, g.mem_all, by rw [hg, BitVec.toNat_ofNat, Nat.mod_eq_of_lt hn]⟩
  · rintro ⟨g, _, rfl⟩
    exact ⟨(m.byteOf g).isLt, g, by simp⟩

/-- Under an injective map 246 of the 256 byte values are no opcode (R78). -/
theorem length_filter_decodeOp_isNone {m : OpcodeMap} (hm : m.Injective) :
    ((List.range 256).filter fun n => (decodeOp m (BitVec.ofNat 8 n)).isNone).length = 246 := by
  have hsplit := List.length_eq_length_filter_add (l := List.range 256) fun n => (decodeOp m (BitVec.ofNat 8 n)).isSome
  rw [(filter_decodeOp_isSome_perm hm).length_eq, List.length_range, List.length_map] at hsplit
  have hten : Handler.all.length = 10 := rfl
  simp only [Option.not_isSome] at hsplit
  omega

/-- Settles O8: the fetch of such a byte raises the fault, and the default map is injective. -/
theorem unknownOpcodeRaisesDecodeError : Obligations.UnknownOpcodeRaisesDecodeError :=
  ⟨fun P _ hx hd => stepWith_of_no_opcode P hx hd, length_filter_decodeOp_isNone Config.opcodeMap_injective, by decide⟩

/-! ### The fault an instruction takes -/

/-- A well-formed instruction that does not advance to 256 takes no fault (R27, R157). -/
theorem exec_keeps_fault {i : Instr} {s : State} (hp : s.pc.toNat + i.handler.operandCount ≤ 255)
    (hw : i.wellFormed = true) (hend : ¬ (Advances i s ∧ s.pc.toNat + i.handler.length = 256)) :
    ∃ t, exec i s = .next t ∧ t.fault = s.fault := by
  refine ⟨_, exec_of_ok hp hw, ?_⟩
  obtain ⟨_, hb⟩ | ⟨_, _, v, hb⟩ | ⟨ha, hb⟩ := bodyOf_cases i s <;> rw [hb]
  · rfl
  · rfl
  · have htop : s.pc.toNat + i.handler.length ≠ 256 := fun h => hend ⟨ha, h⟩
    rw [State.advance_of_le _ _ _ (by rw [effectOf_pc]; unfold Handler.length at htop ⊢; omega)]
    exact effectOf_fault i s

/-- The first condition an instruction meets, in the order of R157, with the exact result of each fault. -/
theorem exec_fault_cases (i : Instr) (s : State) :
    (255 < s.pc.toNat + i.handler.operandCount ∧
      exec i s = .next (stopped s .oobMemoryOperand 256 (s.readByte s.pc))) ∨
    (s.pc.toNat + i.handler.operandCount ≤ 255 ∧ ∃ b, firstBad i = some b ∧
      exec i s = .next (stopped s .oobRegister (b.setWidth 9) (s.readByte s.pc))) ∨
    (i.wellFormed = true ∧ Advances i s ∧ s.pc.toNat + i.handler.length = 256 ∧
      exec i s = .next (stopped (effectOf i s) .oobMemoryFetch 256 (s.readByte s.pc))) ∨
    (s.pc.toNat + i.handler.operandCount ≤ 255 ∧ i.wellFormed = true ∧
      ¬ (Advances i s ∧ s.pc.toNat + i.handler.length = 256) ∧ ∃ t, exec i s = .next t ∧ t.fault = s.fault) := by
  by_cases hp : s.pc.toNat + i.handler.operandCount ≤ 255
  · cases hb : firstBad i with
    | some b => exact .inr (.inl ⟨hp, b, rfl, exec_eq_stopped_of_bad_register hp hb⟩)
    | none =>
      have hw := (firstBad_none_iff i).mp hb
      by_cases hend : Advances i s ∧ s.pc.toNat + i.handler.length = 256
      · obtain ⟨ha, htop⟩ := hend
        exact .inr (.inr (.inl ⟨hw, ha, htop, exec_eq_stopped_effectOf_of_top hw ha htop⟩))
      · exact .inr (.inr (.inr ⟨hp, hw, hend, exec_keeps_fault hp hw hend⟩))
  · have hp : 255 < s.pc.toNat + i.handler.operandCount := by omega
    exact .inl ⟨hp, exec_eq_stopped_of_operand_past hp⟩

/-- Settles O27: the exact result of the register check, and a well-formed instruction passes that check. -/
theorem badRegisterIndexRaisesOutOfBounds : Obligations.BadRegisterIndexRaisesOutOfBounds := by
  refine fun i s hp => ⟨fun b hb => exec_eq_stopped_of_bad_register hp hb, fun hw hk t h => ?_⟩
  obtain ⟨_, he⟩ | ⟨_, b, hb, _⟩ | ⟨_, _, _, he⟩ | ⟨_, _, _, t', he, hf⟩ := exec_fault_cases i s
  · cases he.symm.trans h
    exact FaultKind.noConfusion
  · rw [(firstBad_none_iff i).mpr hw] at hb
    cases hb
  · cases he.symm.trans h
    exact FaultKind.noConfusion
  · cases he.symm.trans h
    rwa [hf]

/-! ### The fault a step takes -/

/-- An executed step at an opcode whose operands would lie past address 255 raises `OOB_MEMORY_OPERAND` (R82, R152). -/
theorem stepWith_of_operand_past {P : Params} {s : State} {g : Handler} (hx : Executes s)
    (hd : decodeOp P.opcodes s.opcodeByte = some g) (hp : 255 < s.pc.toNat + g.operandCount) :
    stepWith P s = .next (stopped s.dropPins .oobMemoryOperand 256 s.opcodeByte) := by
  obtain ⟨hrun, hrst⟩ := hx
  obtain ⟨hn, _⟩ | ⟨_, _, _, hf⟩ | ⟨g', _, hg', hle, _⟩ := fetch_cases P.opcodes s
  · rw [hd] at hn
    cases hn
  · rw [stepWith_of_running P hrst hrun]
    simp only [runStep, fetch_dropPins, hf]
    rfl
  · rw [hd] at hg'
    cases hg'
    omega

/-- The bytes of an instruction the fetch gives stand at `pc` (R71, R82). -/
theorem at_of_fetch {m : OpcodeMap} {i : Instr} {s : State} (h : fetch m s = .instr i) : At m i s := by
  obtain ⟨_, hf⟩ | ⟨_, _, _, hf⟩ | ⟨g, j, hd, hp, rfl, hb, hf⟩ := fetch_cases m s <;> rw [hf] at h <;> cases h
  refine ⟨hp, fun k hk => ?_⟩
  cases k with
  | zero => exact (decodeOp_sound hd).symm
  | succ k =>
    have hlen : k < i.handler.operandCount := by
      rw [← i.length_operandBytes]; simpa [encodeWith] using hk
    have hcount := i.handler.operandCount_le_two
    simp only [encodeWith, List.getElem_cons_succ, hb, List.getElem_take]
    obtain rfl | rfl : k = 0 ∨ k = 1 := by omega
    · exact (s.readByte_add (a := s.pc) (k := 1) (by omega)).symm
    · exact (s.readByte_add (a := s.pc) (k := 2) (by omega)).symm

/-- Everything an executed step can do: take a fault of the fetch, which has no other effect, or run the instruction
whose bytes stand at `pc` (R82, R174). -/
theorem stepWith_executes_cases (P : Params) {s : State} (hx : Executes s) :
    (∃ k a, k ≠ .oobMemoryFetch ∧ stepWith P s = .next (stopped s.dropPins k a s.opcodeByte)) ∨
    ∃ i, At P.opcodes i s ∧ stepWith P s = exec i s.dropPins := by
  obtain ⟨hd, _⟩ | ⟨g, hd, hp, _⟩ | ⟨_, i, _, _, _, _, hf⟩ := fetch_cases P.opcodes s
  · exact .inl ⟨_, _, FaultKind.noConfusion, stepWith_of_no_opcode P hx (decodeOp_none hd)⟩
  · exact .inl ⟨_, _, FaultKind.noConfusion, stepWith_of_operand_past hx hd hp⟩
  · obtain ⟨hrun, hrst⟩ := hx
    refine .inr ⟨i, at_of_fetch hf, ?_⟩
    rw [stepWith_of_running P hrst hrun]
    simp only [runStep, fetch_dropPins, hf]

/-- An instruction's encoding has its handler's length (R70, R71). -/
theorem length_encode (i : Instr) : (encode i).length = i.handler.length := by
  simp [encode, encodeWith, Handler.length, i.length_operandBytes, Nat.add_comm]

/-- Settles O28: HALT has no operand to lie past memory, and each case of `exec_fault_cases` fixes the kind. -/
theorem addressPastMemoryRaisesOutOfBounds : Obligations.AddressPastMemoryRaisesOutOfBounds := by
  refine ⟨fun P s g hm hx hop hp => ⟨?_, ?_⟩, fun i s t hc h => ?_⟩
  · rintro rfl
    exact absurd s.pc.isLt (Nat.not_lt.mpr hp)
  · rw [← hop]
    exact stepWith_of_operand_past hx (by rw [State.opcodeByte, hop, decodeOp_byteOf hm]) hp
  · rw [length_encode]
    obtain ⟨hp, he⟩ | ⟨hp, b, hb, he⟩ | ⟨hw, ha, hp, he⟩ | ⟨hp, _, hend, t', he, hf⟩ := exec_fault_cases i s <;>
      cases he.symm.trans h
    · have hlen : s.pc.toNat + i.handler.length ≠ 256 := by unfold Handler.length; omega
      simp [stopped, hp, hlen]
    · have hw : i.wellFormed ≠ true := fun hw => by rw [(firstBad_none_iff i).mpr hw] at hb; cases hb
      simp [stopped, hp, hw]
    · have hle : s.pc.toNat + i.handler.operandCount ≤ 255 := by unfold Handler.length at hp; omega
      simp [stopped, hw, ha, hp, hle]
    · have hkind : t.fault.kind = .none := by rw [hf, hc]; rfl
      simp only [hkind, reduceCtorEq, or_self, false_iff, false_imp_iff, and_true]
      exact ⟨Nat.not_lt.mpr hp, fun ⟨_, htop⟩ => hend htop⟩

/-- Settles O31: an executed step is known in each case of the rule, from the byte or the instruction at `pc`. -/
theorem faultPriorityOrder : Obligations.FaultPriorityOrder := by
  refine fun P s t hm hx hc h => ⟨fun hd => ?_, fun g hop hp => ?_, fun i hat => ?_⟩
  · cases (stepWith_of_no_opcode P hx hd).symm.trans h
    rfl
  · have hd : decodeOp P.opcodes s.opcodeByte = some g := by rw [State.opcodeByte, ← hop, decodeOp_byteOf hm]
    cases (stepWith_of_operand_past hx hd hp).symm.trans h
    exact ⟨rfl, rfl⟩
  · have hp : s.pc.toNat + i.handler.operandCount ≤ 255 := hat.1
    have hexec : exec i s.dropPins = .next t := (stepWith_of_at hm hx hat).symm.trans h
    refine ⟨fun b hb => ?_, fun hw ha htop => ?_, fun hw hend => ?_⟩
    · cases (exec_eq_stopped_of_bad_register (s := s.dropPins) hp hb).symm.trans hexec
      exact ⟨rfl, rfl⟩
    · cases (exec_eq_stopped_effectOf_of_top (s := s.dropPins) hw ha htop).symm.trans hexec
      rfl
    · obtain ⟨t', he, hf⟩ := exec_keeps_fault (s := s.dropPins) hp hw hend
      cases he.symm.trans hexec
      exact hf.trans hc

/-! ### What the entry of a fault leaves -/

/-- No data effect reads or writes the host's coming inputs. -/
theorem effectOf_dropPins (i : Instr) (s : State) : effectOf i s.dropPins = (effectOf i s).dropPins := by
  cases i <;> rfl

/-- Settles O30: the fault comes from the fetch, from the register check, or from the advance that ends the instruction
at `pc`, whose data effect is the one at address 0 (`sequentialAdvanceNeverWraps`). -/
theorem faultEntryRecordsAndStops : Obligations.FaultEntryRecordsAndStops := by
  intro P s t hx hv h hvt
  obtain ⟨k, a, hk, he⟩ | ⟨i, hat, he⟩ := stepWith_executes_cases P hx <;> rw [he] at h
  · cases h
    exact ⟨rfl, rfl, rfl, rfl, fun _ => rfl, fun hfetch => absurd hfetch hk⟩
  · have hp : s.pc.toNat + i.handler.operandCount ≤ 255 := hat.1
    obtain ⟨hlt, _⟩ | ⟨_, b, _, he⟩ | ⟨hw, ha, htop, he⟩ | ⟨_, _, _, t', he, hf⟩ := exec_fault_cases i s.dropPins
    · exact absurd hlt (Nat.not_lt.mpr hp)
    · cases he.symm.trans h
      exact ⟨rfl, rfl, rfl, rfl, fun _ => rfl, FaultKind.noConfusion⟩
    · obtain ⟨t₀, u, ht₀, hu, hregs, hmem, hflags, hout, _⟩ := sequentialAdvanceNeverWraps.2 i s hw ha hp
      cases (exec_eq_stopped_effectOf_of_top (s := s) hw ha htop).symm.trans ht₀
      rw [effectOf_dropPins] at he
      cases he.symm.trans h
      have hpc := effectOf_pc i s
      exact ⟨rfl, hpc, hpc, rfl, fun hk => absurd rfl hk, fun _ => ⟨i, u, hat, hu, hregs, hmem, hflags, hout⟩⟩
    · cases he.symm.trans h
      rw [hf, State.dropPins_fault, hv] at hvt
      cases hvt

/-! ### A recorded fault until reset -/

/-- The host cannot start a Halted core with a recorded fault, nor change the record, without a reset (R155, R173). -/
theorem haltedStep_of_fault (p : HostPins) {s : State} (hv : s.fault.valid = true) (hh : s.fsm = .halted) :
    (s.haltedStep p).fault = s.fault ∧ (s.haltedStep p).fsm = .halted := by
  rw [haltedStep_eq]
  simp [hv, hh]

/-- A recorded fault stays over any number of steps without reset (R155). -/
theorem runFor_of_fault {P : Params} {n : Nat} {s t : State} (hv : s.fault.valid = true) (hh : s.fsm = .halted)
    (hno : s.NoResetFor n) (h : runFor P n s = .next t) : t.fault = s.fault ∧ t.fsm = .halted := by
  induction n generalizing s with
  | zero =>
    cases h
    exact ⟨rfl, hh⟩
  | succ n ih =>
    obtain ⟨hrst, hno⟩ := hno.of_succ
    obtain ⟨hf, hh'⟩ := haltedStep_of_fault s.nextPins (s := s.dropPins) hv hh
    rw [runFor_succ n (stepWith_of_halted P hrst hh)] at h
    have hno' : (s.dropPins.haltedStep s.nextPins).NoResetFor n := by rw [haltedStep_eq]; exact hno
    obtain ⟨htf, hth⟩ := ih (by rw [hf]; exact hv) hh' hno' h
    exact ⟨htf.trans hf, hth⟩

/-- Settles O32: `runFor_of_fault`, and after a reset the record is clear, so a start runs the core. -/
theorem faultIsStickyUntilReset : Obligations.FaultIsStickyUntilReset := by
  refine fun P => ⟨fun n s t hv hh hno h => runFor_of_fault hv hh hno h, fun s p q rest hs hp hq hstart => ?_⟩
  have hreset : s.nextPins.rst = true := by rw [State.nextPins, hs]; exact hp
  have hnext : (s.dropPins.resetWith P).nextPins = q := by
    rw [State.nextPins, State.resetWith_hostIn, State.dropPins_hostIn, hs]; rfl
  refine ⟨_, _, stepWith_of_reset P hreset, rfl, stepWith_of_halted P (by rw [hnext]; exact hq) rfl, ?_⟩
  rw [haltedStep_eq, hnext]
  simp [hstart, FaultRecord.clear]

end Sys2Proof.Machine
end

section
/-! A step and a run whose pins are known: the run entry (O36), the image load (O37) and the boot sequence (O38). -/

namespace Sys2Proof.Machine

open Sys2Proof.Claim

/-! ### One step under known pins -/

/-- The pins the host drives are those of the next step (R175). -/
theorem nextPins_of_driven {s : State} {p : HostPins} {rest : List HostPins} (h : Driven s p rest) : s.nextPins = p := by
  rw [State.nextPins, h]
  rfl

/-- The pins the host drives are taken by the step, and the later ones are left. -/
theorem dropPins_of_driven {s : State} {p : HostPins} {rest : List HostPins} (h : Driven s p rest) :
    s.dropPins = { s with hostIn := rest } := by
  rw [State.dropPins, h]
  rfl

/-- A Halted core answers the pins driven: a byte of memory and the FSM state may change (R173, R176). -/
theorem stepWith_of_driven_halted (P : Params) {s : State} {p : HostPins} {rest : List HostPins} (h : Driven s p rest)
    (hr : p.rst = false) (hh : s.fsm = .halted) :
    stepWith P s = .next { s with
      mem := if p.ldWe then s.mem.write p.ldAddr.toNat p.ldWdata else s.mem
      fsm := if p.start && !s.fault.valid then .running else s.fsm
      hostIn := rest } := by
  rw [stepWith_of_halted P (by rw [nextPins_of_driven h, hr]) hh, haltedStep_eq, nextPins_of_driven h,
    dropPins_of_driven h]

/-- A host write stores its byte in the memory of a Halted core (R176). -/
theorem stepWith_of_load (P : Params) {s : State} {a v : Byte} {rest : List HostPins} (h : Driven s (.load a v) rest)
    (hh : s.fsm = .halted) : stepWith P s = .next { s with mem := s.mem.write a.toNat v, hostIn := rest } :=
  stepWith_of_driven_halted P h rfl hh

/-- A start runs a Halted core without a recorded fault (R173). -/
theorem stepWith_of_start (P : Params) {s : State} {rest : List HostPins} (h : Driven s .run rest)
    (hh : s.fsm = .halted) (hv : s.fault.valid = false) :
    stepWith P s = .next { s with fsm := .running, hostIn := rest } := by
  rw [stepWith_of_driven_halted P h rfl hh, hv]
  rfl

/-- A Running core takes the same step under any pins without reset (R174, R176). -/
theorem stepWith_of_driven_running (P : Params) {s : State} {p q : HostPins} {rest : List HostPins}
    (h : Driven s p rest) (hp : p.rst = false) (hq : q.rst = false) (hrun : s.fsm = .running) :
    stepWith P s = stepWith P { s with hostIn := q :: rest } := by
  rw [stepWith_of_running P (by rw [nextPins_of_driven h, hp]) hrun,
    stepWith_of_running P (s := { s with hostIn := q :: rest }) hq hrun, dropPins_of_driven h]
  rfl

/-- Settles O36: the step of a Halted core is known, and that of a Running one does not depend on `start`. -/
theorem startEntersRunningOnlyFromHaltedWithoutFault : Obligations.StartEntersRunningOnlyFromHaltedWithoutFault := by
  refine fun P s p rest hs hrst hstart => ⟨fun hh hv => ?_, fun hh hv => ?_, fun hrun => ?_⟩
  · exact ⟨_, stepWith_of_driven_halted P hs hrst hh, by simp [hstart, hv], rfl, rfl, rfl, rfl, rfl⟩
  · exact ⟨_, stepWith_of_driven_halted P hs hrst hh, by simp [hv, hh], rfl⟩
  · exact stepWith_of_driven_running P hs hrst hrst hrun

/-! ### The image load -/

/-- Storing bytes from `a` on leaves every address after the last of them (R52). -/
theorem Memory.read_writeAll_above (m : Memory) {a c : Nat} {bs : List Byte} (hc : a + bs.length ≤ c) :
    (m.writeAll a bs).read c = m.read c := by
  induction bs generalizing m a with
  | nil => rfl
  | cons b bs ih =>
    rw [List.length_cons] at hc
    unfold Memory.writeAll
    split
    · rw [ih _ (by omega), Memory.read_write_other _ _ (by omega)]
    · rfl

/-- Memory with an image stored from address 0 on: byte `i` at address `i`, and the cells beyond it as before (R176). -/
theorem Memory.read_writeAll_zero (m : Memory) {image : List Byte} (hfit : image.length ≤ 256) (a : Nat) :
    (m.writeAll 0 image).read a = if h : a < image.length then image[a] else m.read a := by
  split
  · next h => simpa using m.read_writeAll (a := 0) (by omega) h
  · next h => exact m.read_writeAll_above (by omega)

/-- Loading an image into a Halted core stores its bytes from `a` on and changes nothing else (R176). -/
theorem runFor_loadPins (P : Params) {image : List Byte} {a : Nat} {s : State} {rest : List HostPins}
    (hfit : a + image.length ≤ 256) (hh : s.fsm = .halted) (hs : s.hostIn = loadPins a image ++ rest) :
    runFor P image.length s = .next { s with mem := s.mem.writeAll a image, hostIn := rest } := by
  induction image generalizing a s with
  | nil =>
    obtain rfl : s.hostIn = rest := hs
    rfl
  | cons b bs ih =>
    rw [List.length_cons] at hfit
    have haddr : (BitVec.ofNat 8 a).toNat = a := Nat.mod_eq_of_lt (by omega)
    have hdriven : Driven s (.load (BitVec.ofNat 8 a) b) (loadPins (a + 1) bs ++ rest) := hs
    rw [List.length_cons, runFor_succ _ (stepWith_of_load P hdriven hh), haddr, Memory.writeAll, if_pos (by omega)]
    exact ih (s := { s with mem := s.mem.write a b, hostIn := loadPins (a + 1) bs ++ rest }) (by omega) hh rfl

/-- Settles O37: one step of a core of either FSM state, and the load of the whole image. -/
theorem hostWritesMemoryOnlyWhileHalted : Obligations.HostWritesMemoryOnlyWhileHalted := by
  refine ⟨fun P s p rest hs hrst hwe => ⟨fun hh => ?_, fun hrun => ?_⟩, fun P s image rest hfit hh hs => ?_⟩
  · refine ⟨_, stepWith_of_driven_halted P hs hrst hh, ?_, fun a ha => ?_⟩
    · simp [hwe]
    · simp [hwe, Memory.read_write_other _ _ ha]
  · exact stepWith_of_driven_running P hs hrst hrst hrun
  · exact ⟨_, runFor_loadPins P (by omega) hh hs, hh, rfl, rfl, rfl, s.mem.read_writeAll_zero hfit⟩

/-! ### The boot sequence -/

/-- The boot sequence ends Running in the reset state with the image stored from address 0 on (R177). -/
theorem runFor_bootPins (P : Params) {s : State} {image : List Byte} {rest : List HostPins}
    (hfit : image.length ≤ 256) (hs : s.hostIn = bootPins image ++ rest) :
    runFor P (image.length + 2) s =
      .next { s.resetWith P with mem := (s.resetWith P).mem.writeAll 0 image, fsm := .running, hostIn := rest } := by
  have hdriven : Driven s .reset (loadPins 0 image ++ HostPins.run :: rest) := by
    rw [Driven, hs]
    simp [bootPins]
  have hreset := stepWith_of_reset P (s := s) (by rw [nextPins_of_driven hdriven]; rfl)
  rw [dropPins_of_driven hdriven] at hreset
  rw [runFor_succ (image.length + 1) hreset, runFor_add image.length 1 (runFor_loadPins P (by omega) rfl rfl)]
  exact runFor_succ 0 (stepWith_of_start P rfl rfl rfl)

/-- Settles O38: `runFor_bootPins`, at any parameters and at the defaults, where reset clears RAM. -/
theorem bootSequenceRunsTheImage : Obligations.BootSequenceRunsTheImage := by
  refine ⟨fun P s image rest hfit hs => ?_, fun s image rest hfit hs => ?_⟩
  · refine ⟨_, runFor_bootPins P hfit hs, rfl, fun a => ?_⟩
    rw [Memory.read_writeAll_zero _ hfit, State.resetWith_mem]
    cases P.clearsRam <;> rfl
  · refine ⟨_, runFor_bootPins Config.params hfit hs, rfl, fun a => ?_⟩
    rw [Memory.read_writeAll_zero _ hfit]
    rfl

end Sys2Proof.Machine
end

section
/-! The end of a run without a fault (O49). -/

namespace Sys2Proof.Machine

/-- Every run has a state after any number of steps: every step has a next state (R174). -/
theorem exists_runFor_eq_next (P : Params) (n : Nat) (s : State) : ∃ t, runFor P n s = .next t := by
  induction n generalizing s with
  | zero => exact ⟨s, rfl⟩
  | succ n ih =>
    obtain ⟨t, ht⟩ := exists_stepWith_eq_next P s
    rw [runFor_succ n ht]
    exact ih t

/-- A run of one step more, from its last step. -/
theorem exists_last_step {P : Params} {n : Nat} {s t : State} (h : runFor P (n + 1) s = .next t) :
    ∃ u, runFor P n s = .next u ∧ stepWith P u = .next t := by
  obtain ⟨u, hu⟩ := exists_runFor_eq_next P n s
  obtain ⟨v, hv⟩ := exists_stepWith_eq_next P u
  rw [runFor_add n 1 hu, runFor_succ 0 hv] at h
  cases h
  exact ⟨u, hu, hv⟩

/-- The step of a Running core takes none of the host's inputs (R174). -/
theorem runStep_hostIn {m : OpcodeMap} {s t : State} (h : runStep m s = .next t) : t.hostIn = s.hostIn := by
  obtain ⟨k, a, _, he⟩ | ⟨i, _, _, he⟩ := runStep_cases m s <;> rw [he] at h <;> cases h
  · rfl
  · obtain hs | hs := bodyOf_sameData i s
    · exact hs.hostIn
    · exact hs.hostIn.trans (effectOf_hostIn i s)

/-- Every step takes one entry of the host's coming inputs (log entry 2). -/
theorem stepWith_hostIn {P : Params} {s t : State} (h : stepWith P s = .next t) : t.hostIn = s.hostIn.tail := by
  obtain ⟨_, he⟩ | ⟨_, _, he⟩ | ⟨_, _, he⟩ := stepWith_cases P s <;> rw [he] at h
  · cases h
    rfl
  · cases h
    rw [haltedStep_eq]
    rfl
  · exact runStep_hostIn h

/-- After the first `m` of `m + n` steps without reset the other `n` steps are without reset. -/
theorem State.NoResetFor.of_runFor {P : Params} {m n : Nat} {s u : State} (hno : s.NoResetFor (m + n))
    (h : runFor P m s = .next u) : u.NoResetFor n := by
  induction m generalizing s with
  | zero =>
    cases h
    rwa [Nat.zero_add] at hno
  | succ m ih =>
    obtain ⟨v, hv⟩ := exists_stepWith_eq_next P s
    rw [runFor_succ m hv] at h
    rw [Nat.succ_add] at hno
    obtain ⟨_, hno⟩ := hno.of_succ
    refine ih ?_ h
    rw [State.NoResetFor, stepWith_hostIn hv]
    exact hno

/-- A run that ends, not cut off by reset, ends in the step of a Running core (R180). -/
theorem RunEnds.exists_last_runStep {P : Params} {s t : State} {n : Nat} (h : RunEnds P s n t) :
    ∃ m u, n = m + 1 ∧ runFor P m s = .next u ∧ u.fsm = .running ∧ runStep P.opcodes u.dropPins = .next t := by
  cases n with
  | zero =>
    obtain rfl : s = t := Host.Outcome.next.inj h.reaches
    cases h.starts.symm.trans h.ended
  | succ m =>
    obtain ⟨u, hu, hstep⟩ := exists_last_step h.reaches
    have hrun : u.fsm = .running := h.first m (Nat.lt_succ_self m) u hu
    obtain ⟨hrst, _⟩ := (h.uncut.of_runFor hu).of_succ
    exact ⟨m, u, rfl, hu, hrun, (stepWith_of_running P hrst hrun).symm.trans hstep⟩

/-- A Running core that stops without a fault executed a HALT (R32, R100). -/
theorem eq_halt_of_runStep_stops {m : OpcodeMap} {s t : State} (hr : s.fsm = .running) (h : runStep m s = .next t)
    (ht : t.fsm = .halted) (hv : t.fault.valid = false) : s.opcodeByte = m.byteOf .halt ∧ t = s.halt := by
  obtain ⟨k, a, _, he⟩ | ⟨i, hd, _, he⟩ := runStep_cases m s <;> rw [he] at h <;> cases h
  · cases hv
  obtain ⟨hh, hb⟩ | ⟨_, _, v, hb⟩ | ⟨_, hb⟩ := bodyOf_cases i s <;> rw [hb] at ht hv
  · exact ⟨by rw [← hh, decodeOp_sound hd], hb⟩
  · cases hr.symm.trans ht
  · obtain ⟨_, e⟩ | ⟨_, e⟩ := (effectOf i s).advance_cases i.handler s.opcodeByte <;> rw [e] at ht hv
    · cases ((effectOf_fsm i s).trans hr).symm.trans ht
    · cases hv

/-- Settles O49: the last step is a Running core's, and without a fault only HALT stops one. -/
theorem normalEndMeansHaltExecuted : Obligations.NormalEndMeansHaltExecuted := by
  intro P s t n hends hv
  obtain ⟨m, u, hn, hu, hrun, hlast⟩ := hends.exists_last_runStep
  obtain ⟨hop, rfl⟩ := eq_halt_of_runStep_stops (s := u.dropPins) hrun hlast hends.ended hv
  exact ⟨rfl, m, u, hn, hu, hrun, hop⟩

end Sys2Proof.Machine
end

section
/-! What the host sees of a step and of a state: at most one output event (O34), and the status ports (O41). -/

namespace Sys2Proof.Machine

/-- A data effect leaves the output, unless it is PRINT_REGISTER's, which emits one byte (R104, R105). -/
theorem effectOf_out_cases (i : Instr) (s : State) :
    (effectOf i s).out = s.out ∨ ∃ v, (effectOf i s).out = s.out ++ [v] := by
  cases i with
  | printRegister reg => exact .inr ⟨_, rfl⟩
  | _ => exact .inl rfl

/-- The step of a Running core emits at most one byte (R174). -/
theorem runStep_out_cases {m : OpcodeMap} {s t : State} (h : runStep m s = .next t) :
    t.out = s.out ∨ ∃ v, t.out = s.out ++ [v] := by
  obtain ⟨k, a, _, he⟩ | ⟨i, _, _, he⟩ := runStep_cases m s <;> rw [he] at h <;> cases h
  · exact .inl rfl
  · obtain hs | hs := bodyOf_sameData i s
    · exact .inl hs.out
    · rw [hs.out]
      exact effectOf_out_cases i s

/-- Settles O34: there is a next state, and only the step of a Running core can emit. -/
theorem stepAnswersWithAtMostOneEvent : Obligations.StepAnswersWithAtMostOneEvent := by
  intro P s
  obtain ⟨t, ht⟩ := exists_stepWith_eq_next P s
  refine ⟨t, ht, ?_⟩
  obtain ⟨_, he⟩ | ⟨_, _, he⟩ | ⟨_, _, he⟩ := stepWith_cases P s <;> rw [he] at ht
  · cases ht
    exact .inl rfl
  · cases ht
    rw [haltedStep_eq]
    exact .inl rfl
  · exact runStep_out_cases (s := s.dropPins) ht

/-- The bits of the status port's flag register are E, G and L, from bit 0 (R31). -/
theorem Flags.getLsbD_toBits (f : Flags) :
    f.toBits.getLsbD 0 = f.e ∧ f.toBits.getLsbD 1 = f.g ∧ f.toBits.getLsbD 2 = f.l := by
  obtain ⟨g, e, l⟩ := f
  revert g e l
  decide

/-- Settles O41: every status output is a field of the state, and the readouts of a Halted core are no free values. -/
theorem statusPortsShowTheState : Obligations.StatusPortsShowTheState := by
  intro draw p s
  obtain ⟨he, hg, hl⟩ := s.flags.getLsbD_toBits
  refine ⟨decide_eq_true_iff, rfl, ?_, rfl, rfl, rfl, rfl, he, hg, hl, fun hh => ⟨if_pos hh, fun r hr => ?_⟩⟩
  · show s.fault.kind.code.toNat = _
    cases s.fault.kind <;> rfl
  · obtain rfl : r = p.dbgRsel.toFin := Fin.ext hr
    exact if_pos hh

end Sys2Proof.Machine
end

section
/-! Reset at any time (O39), and what reset and power-up leave in memory and in SP (O40). -/

namespace Sys2Proof.Machine

/-- Settles O39: `stepWith_of_reset`, at any parameters and at the defaults. -/
theorem resetAtAnyTime : Obligations.ResetAtAnyTime :=
  ⟨fun P _ hr => stepWith_of_reset P hr, fun _ hr => stepWith_of_reset Config.params hr⟩

/-- Memory after a write of `f a` at each listed address `a`. -/
theorem Memory.read_foldl_write (f : Nat → Byte) (l : List Nat) (m : Memory) (a : Nat) :
    (l.foldl (fun m a => m.write a (f a)) m).read a = if a ∈ l then f a else m.read a := by
  induction l generalizing m with
  | nil => rfl
  | cons b l ih =>
    rw [List.foldl_cons, ih, Memory.read_write]
    by_cases hl : a ∈ l
    · simp [hl]
    · by_cases hb : a = b
      · simp [hb]
      · simp [hl, hb]

/-- Each cell after power-up holds its draw (R171). -/
theorem Memory.read_powerUp {a : Nat} (ha : a < 256) : Memory.powerUp.read a = Config.powerUpByte a := by
  rw [Memory.powerUp, Memory.read_foldl_write, if_pos (List.mem_range.mpr ha)]

/-- Settles O40: reset empties memory or keeps it, and power-up is a reset of memory that holds the draws. -/
theorem resetClearsRamParameter : Obligations.ResetClearsRamParameter := by
  refine fun P s => ⟨fun hc a => ⟨?_, ?_⟩, fun hc a => ⟨?_, fun ha => ?_⟩, rfl, rfl⟩
  · rw [State.resetWith_mem, if_pos hc]
    rfl
  · rw [State.powerUp, State.resetWith_mem, if_pos hc]
    rfl
  · rw [State.resetWith_mem, if_neg (by simp [hc])]
  · rw [State.powerUp, State.resetWith_mem, if_neg (by simp [hc]), Memory.read_powerUp ha]

end Sys2Proof.Machine
end
